-- ==== Sys2Proof/Word.lean ====
section
/-! DEFINITION. The units of the block: bytes, words, addresses, and the 256-entry table (00_scope.md R7, R8, R9). -/

namespace Sys2Proof

/-- A table entry, a key byte, a buffer byte: 8 bits (R7, `BYTE_W`). -/
abbrev Byte := BitVec 8

/-- A host register, a memory address, a size or a cursor: 32 bits, unsigned (R8, `REG_W`, `P_AW`, `SIZE_W`). -/
abbrev Word := BitVec 32

/-- A table: exactly 256 entries of one byte (R7, R11, `TBL_LEN`). -/
abbrev Table := Vector Byte 256

/-- The index of a host register: 6 bits, 0 to 63 (R8, `REG_IDX_W`; R26). -/
abbrev RegIndex := BitVec 6

/-- The pointer value that means "reference absent" (R8, R18, `NULL`). -/
def nullPtr : Word := 0#32

/-- `addr +a n` for an element number `n`: the sum reduced modulo `2^32` (R10, R69, R80). -/
def elemAddr (ptr : Word) (n : Nat) : Word := ptr + BitVec.ofNat 32 n

end Sys2Proof
end

