-- ==== Sys2Proof/Syntax.lean ====
section
/-! DEFINITION. The commands, one constructor per row of spec/opcode_table.json (30_encoding.md R92), the host registers
by name (10_state.md R26), and the events the host can cause (00_scope.md R17; 45_register_access.md; 70 R260). -/

namespace Sys2Proof

/-- The seven commands (R90, R92). `c` is the slot number of the `CTX` field (R94). -/
inductive Instr where
  | init (c : Nat)
  | gen (c : Nat)
  | validate (c : Nat)
  | enc (c : Nat)
  | dec (c : Nat)
  | ldbase
  | teardown (c : Nat)
  deriving DecidableEq, Repr

/-- The host registers (R26). `unimplemented` stands for the indices 18 to 63 (R36). -/
inductive Reg where
  | cmd | status | mode
  | argKeyPtr | argKeySize | argBufPtr | argBufSize | argSrcPtr | argSrcLen
  | winCtx | winKeyPtr | winKeySize | winEncCur | winDecCur | winTaddr | winTdata
  | id | nctx
  | unimplemented
  deriving DecidableEq, Repr

/-- What the host does, one transaction at a time (R17, R212): register reads and writes (R210, R211), ordinary
accesses to system memory (R17, R98; a write by another bus master between commands is a `store` too), and the reset
input (R260). -/
inductive HostOp where
  /-- `rd i`. -/
  | read (i : RegIndex)
  /-- `wr i, v`. -/
  | write (i : RegIndex) (v : Word)
  /-- An ordinary load of one byte of system memory. -/
  | load (a : Word)
  /-- An ordinary store of one byte to system memory. -/
  | store (a : Word) (b : Byte)
  /-- The block's reset is asserted, between two host transactions (R260). -/
  | reset
  deriving DecidableEq, Repr

/-- What a read or a load gives the host (R210; R66). -/
inductive Reply where
  | word (v : Word)
  | byte (b : Byte)
  deriving DecidableEq, Repr

end Sys2Proof
end

