-- ==== Sys2Proof/WellFormed.lean ====
section
/-! DEFINITION. Which commands a command word can carry (30_encoding.md R91, R94). -/

namespace Sys2Proof

/-- The slot number fits the 4-bit `CTX` field (R91, R94). A slot number at or above `P_NCTX` is well formed: it
names an absent context (R93). -/
def Instr.wellFormed : Instr → Bool
  | .init c => decide (c < 16)
  | .gen c => decide (c < 16)
  | .validate c => decide (c < 16)
  | .enc c => decide (c < 16)
  | .dec c => decide (c < 16)
  | .ldbase => true
  | .teardown c => decide (c < 16)

end Sys2Proof
end

