-- ==== Sys2Proof/Decode.lean ====
section
/-! DEFINITION. The decoder, total on every 32-bit word, and the encoder beside it (30_encoding.md R91 to R96, R99); the
decoding of a host register index (10_state.md R26). -/

namespace Sys2Proof

/-- Why a command word is illegal (R95). -/
inductive Reject where
  /-- A bit of 31:12 is set. -/
  | reservedBits
  /-- `OP` is no opcode of the table. -/
  | unknownOpcode
  /-- `LDBASE` with a `CTX` field other than 0. -/
  | ldbaseContext
  deriving DecidableEq, Repr

/-- A row of the opcode map (R92). -/
structure OpcodeRow where
  mnemonic : String
  pattern : Word
  mask : Word
  /-- The command, given the `CTX` field. -/
  build : Nat → Instr

/-- The opcode map (R92; spec/opcode_table.json). -/
def opcodeTable : List OpcodeRow :=
  [ { mnemonic := "INIT",     pattern := 0x00000001#32, mask := 0xFFFFF0FF#32, build := .init },
    { mnemonic := "GEN",      pattern := 0x00000002#32, mask := 0xFFFFF0FF#32, build := .gen },
    { mnemonic := "VALIDATE", pattern := 0x00000003#32, mask := 0xFFFFF0FF#32, build := .validate },
    { mnemonic := "ENC",      pattern := 0x00000004#32, mask := 0xFFFFF0FF#32, build := .enc },
    { mnemonic := "DEC",      pattern := 0x00000005#32, mask := 0xFFFFF0FF#32, build := .dec },
    { mnemonic := "LDBASE",   pattern := 0x00000006#32, mask := 0xFFFFFFFF#32, build := fun _ => .ldbase },
    { mnemonic := "TEARDOWN", pattern := 0x00000007#32, mask := 0xFFFFF0FF#32, build := .teardown } ]

/-- A row matches `w` when `(w AND mask) = match` (R93). -/
def OpcodeRow.matchesWord (r : OpcodeRow) (w : Word) : Bool := decide (w &&& r.mask = r.pattern)

/-- Bits 7:0, `OP` (R91). -/
def opField (w : Word) : BitVec 8 := w.extractLsb' 0 8

/-- Bits 11:8, `CTX` (R91), an unsigned slot number (R94). -/
def ctxField (w : Word) : Nat := (w.extractLsb' 8 4).toNat

/-- Bits 31:12, reserved (R91). -/
def reservedField (w : Word) : BitVec 20 := w.extractLsb' 12 20

/-- Which of the illegal forms of R95 a word without a matching row has. -/
def rejectReason (w : Word) : Reject :=
  if reservedField w ≠ 0 then .reservedBits
  else if opField w = 0x06#8 then .ldbaseContext
  else .unknownOpcode

/-- Decoding (R93): the command of the matching row with `c = w[11:8]`; no matching row, an illegal word (R95). -/
def decode (w : Word) : Except Reject Instr :=
  match opcodeTable.find? (fun r => r.matchesWord w) with
  | some r => .ok (r.build (ctxField w))
  | none => .error (rejectReason w)

/-- A command word of format `C` from its two fields (R91, R99). -/
def commandWord (op : BitVec 8) (c : Nat) : Word := 0#20 ++ BitVec.ofNat 4 c ++ op

/-- The encoder: the word of a command (R92, R99). -/
def encode : Instr → Word
  | .init c => commandWord 0x01#8 c
  | .gen c => commandWord 0x02#8 c
  | .validate c => commandWord 0x03#8 c
  | .enc c => commandWord 0x04#8 c
  | .dec c => commandWord 0x05#8 c
  | .ldbase => commandWord 0x06#8 0
  | .teardown c => commandWord 0x07#8 c

/-- The command word whose bits `nbits-1 .. 0` are those of `w`. Every command word is 32 bits (R91). -/
def tableWord (nbits w : Nat) : Word := BitVec.ofNat 32 (w % 2 ^ nbits)

/-- What the decoder reads from the bits `w`: no command word is longer than 32 bits (R91). -/
def decodeTableWord (nbits w : Nat) : Option Instr :=
  if w % 2 ^ nbits < 2 ^ 32 then (decode (tableWord nbits w)).toOption else none

/-- The register behind a host register index (R26, R36). -/
def Reg.ofIndex (i : RegIndex) : Reg :=
  match i.toNat with
  | 0 => .cmd
  | 1 => .status
  | 2 => .mode
  | 3 => .argKeyPtr
  | 4 => .argKeySize
  | 5 => .argBufPtr
  | 6 => .argBufSize
  | 7 => .argSrcPtr
  | 8 => .argSrcLen
  | 9 => .winCtx
  | 10 => .winKeyPtr
  | 11 => .winKeySize
  | 12 => .winEncCur
  | 13 => .winDecCur
  | 14 => .winTaddr
  | 15 => .winTdata
  | 16 => .id
  | 17 => .nctx
  | _ => .unimplemented

/-- The index of a register by name (R26); `unimplemented` has 46 indices and gives the first, 18. -/
def Reg.index : Reg → RegIndex
  | .cmd => 0#6
  | .status => 1#6
  | .mode => 2#6
  | .argKeyPtr => 3#6
  | .argKeySize => 4#6
  | .argBufPtr => 5#6
  | .argBufSize => 6#6
  | .argSrcPtr => 7#6
  | .argSrcLen => 8#6
  | .winCtx => 9#6
  | .winKeyPtr => 10#6
  | .winKeySize => 11#6
  | .winEncCur => 12#6
  | .winDecCur => 13#6
  | .winTaddr => 14#6
  | .winTdata => 15#6
  | .id => 16#6
  | .nctx => 17#6
  | .unimplemented => 18#6

end Sys2Proof
end

