-- ==== Sys2Proof/Config.lean ====
section
/-! DEFINITION. What an implementation fixes (the open parameters of 00_scope.md R8), the constants, the byte an
unlisted memory address reads as, and the FREE VALUES: opaque constants about which nothing can be proved. -/

namespace Sys2Proof

/-- The range of `P_LIT_ENC_CURSOR_SRC` (R8, R175): the cursor from which the literal `ENC` takes its start index. -/
inductive CursorSrc where
  | enc
  | dec
  deriving DecidableEq, Repr

/-- The two parameters the spec leaves open (R8; 92_eei_decisions.md D5, D11). The machine's state carries them, so
a statement about every state is a statement about every value of them. -/
structure Params where
  /-- `P_NCTX`, the number of context slots. -/
  nctx : Nat
  /-- `P_LIT_ENC_CURSOR_SRC`. -/
  litEncCursorSrc : CursorSrc
  deriving DecidableEq, Repr

/-- `P_NCTX` is an integer in 1..16 (R8). -/
abbrev Params.legal (p : Params) : Prop := 1 ≤ p.nctx ∧ p.nctx ≤ 16

/-- The suggested values, which the spec's own test vectors use (R8; 95_test_vectors.md). DESIGN CHOICE, log entry 1. -/
def Params.suggested : Params := { nctx := 1, litEncCursorSrc := .enc }

/-- The constant the register `ID` reads (R8, R35). -/
def Config.idValue : Word := 0x544D5043#32

/-- What a memory address that nothing has written reads as. DESIGN CHOICE, log entry 2: the spec leaves the bytes
the platform initialised to the platform (R66). -/
def Config.unlistedByte : Byte := 0#8

/-- FREE VALUE: the inverse table of a table that is not a permutation (R143; 93_implementation_defined.md U1),
drawn anew for each command. Log entry 3. -/
opaque Config.undefinedInverse : Nat → Table

/-- FREE VALUE: the key byte the transform loop combines with buffer byte `n` where the spec promises none, drawn anew
for each command (first argument) and each buffer byte (second argument): a start cursor outside the key, or a buffer
that overlaps the key (93_implementation_defined.md U3, U4). Log entries 4 and 5. -/
opaque Config.undefinedKeyByte : Nat → Nat → Byte

/-- FREE VALUE: the cursor a transform writes back after it was entered with a start cursor outside the key
(93_implementation_defined.md U3), drawn anew for each command. Log entry 4. -/
opaque Config.undefinedCursor : Nat → Word

end Sys2Proof
end

