-- ==== Sys2Proof/Machine/Memory.lean ====
section
/-! DEFINITION. System memory (20_memory.md R60, R66): a total map from 2^32 addresses to bytes, held as the list of the
cells that differ from what an unlisted address reads as. -/

namespace Sys2Proof.Machine

/-- The listed cells, addresses strictly rising. -/
abbrev Memory := List Host.Cell

/-- `MemRead(addr, 1)` (R13). It cannot fail (R66). -/
def Memory.read : Memory → Word → Byte
  | [], _ => Config.unlistedByte
  | (k, x) :: m, a => if k = a.toNat then x else Memory.read m a

/-- The list `m` with the cell `(a, v)` in front, or `m` itself if an unlisted address reads as `v`. -/
def Memory.listCell (a : Nat) (v : Byte) (m : Memory) : Memory :=
  if v = Config.unlistedByte then m else (a, v) :: m

/-- `MemWrite(addr, 1, v)` (R13), keeping the canonical form. It cannot fail (R66). -/
def Memory.write : Memory → Word → Byte → Memory
  | [], a, v => Memory.listCell a.toNat v []
  | (k, x) :: m, a, v =>
    if k < a.toNat then (k, x) :: Memory.write m a v
    else if k = a.toNat then Memory.listCell a.toNat v m
    else Memory.listCell a.toNat v ((k, x) :: m)

/-- The canonical form: addresses strictly rising and inside the address space, no entry equal to what an unlisted
address reads as. -/
abbrev Memory.wf (m : Memory) : Prop :=
  m.Pairwise (fun x y => x.1 < y.1) ∧ ∀ cell ∈ m, cell.1 < 2 ^ 32 ∧ cell.2 ≠ Config.unlistedByte

end Sys2Proof.Machine
end

