-- ==== Sys2Proof/Machine/Tables.lean ====
section
/-! DEFINITION. Tables of 256 bytes (00_scope.md R11) and the table generator's steps on them
(41_table_generator.md R140 to R143). -/

namespace Sys2Proof

/-- The byte values, and so the table indices, 0 to 255 in ascending order. -/
def allBytes : List Byte := (List.range 256).map (BitVec.ofNat 8)

theorem allBytes_length : allBytes.length = 256 := by simp [allBytes]

/-- The table with these 256 entries, index 0 first. -/
def Table.ofList (l : List Byte) (h : l.length = 256) : Table := ⟨⟨l⟩, h⟩

/-- The table with `T[i] = f i`. -/
def Table.ofFun (f : Byte → Byte) : Table :=
  Table.ofList (allBytes.map f) (by simp [allBytes_length])

/-- `T[i]` (R11). The index is a byte, so it is always in range (R180 (b)). -/
def Table.entry (T : Table) (i : Byte) : Byte := T[i.toNat]'i.isLt

/-- `T[i] <- v` (R11). -/
def Table.put (T : Table) (i v : Byte) : Table := T.set i.toNat v i.isLt

/-- `ZERO256` (R11). -/
def Table.zero : Table := Table.ofFun fun _ => 0#8

/-- `IDENT` (R11). -/
def Table.ident : Table := Table.ofFun fun i => i

/-- Byte for byte equality of two tables (R160, R161). -/
def Table.same (T U : Table) : Bool := decide (T.toList = U.toList)

/-- Every byte value occurs exactly once among the entries (R11): the set of values seen, as a bit set, is full, and
there are 256 entries (the lemma `Table.isPerm_iff_count` says it with counts). -/
def Table.isPerm (T : Table) : Bool :=
  T.toList.foldl (fun seen b => seen ||| 2 ^ b.toNat) 0 == 2 ^ 256 - 1

/-- Step 1 (R141): the entry at position `p` is removed and reinserted at position 0. -/
def Table.moveToFront (F : Table) (p : Byte) : Table :=
  Table.ofList (F.entry p :: F.toList.eraseIdx p.toNat)
    (by have := p.isLt; simp [List.length_eraseIdx]; omega)

/-- Step 2 (R142): the entry at position `p` is removed and reinserted at position 255. -/
def Table.moveToBack (F : Table) (p : Byte) : Table :=
  Table.ofList (F.toList.eraseIdx p.toNat ++ [F.entry p])
    (by have := p.isLt; simp [List.length_eraseIdx]; omega)

/-- What one key byte does to the table (R140): step 1 on position `k - 1` if `k > 0`, then step 2 on position `k + 1`
if `k < 255`. -/
def Table.rotateAround (F : Table) (k : Byte) : Table :=
  let F₁ := if 0#8 < k then F.moveToFront (k - 1#8) else F
  if k < 255#8 then F₁.moveToBack (k + 1#8) else F₁

/-- The forward table of `derive` (R140): the steps of every key byte, in key order, from a copy of `B`. -/
def Table.forward (B : Table) (key : List Byte) : Table := key.foldl Table.rotateAround B

/-- The position at which the value `v` stands in `F`, for a permutation `F`. -/
def Table.position (F : Table) (v : Byte) : Byte := BitVec.ofNat 8 (F.toList.idxOf v)

/-- `invert(F)` (R143): the table `I` with `I[F[i]] = i`, for a permutation `F`. For any other `F` the spec defines no
table (93_implementation_defined.md U1), and the result is the free value `undefinedTable` that the caller supplies. -/
def Table.invert (F : Table) (undefinedTable : Table) : Table :=
  if F.isPerm then Table.ofFun F.position else undefinedTable

end Sys2Proof
end

