-- ==== Sys2Proof/Machine/Slot.lean ====
section
/-! DEFINITION. A context slot (10_state.md R22) and its destroyed state (R33). -/

namespace Sys2Proof.Machine

/-- The six fields of a context slot (R22). -/
structure Slot where
  /-- Address of the key; the key bytes stay in system memory (R22, R37). -/
  keyPtr : Word
  /-- Number of key bytes. -/
  keySize : Word
  /-- `FWD`, the forward table. -/
  fwd : Table
  /-- `INV`, the inverse table. -/
  inv : Table
  /-- `enc_cur`. -/
  encCur : Word
  /-- `dec_cur`. -/
  decCur : Word
  deriving DecidableEq, Repr

/-- The destroyed state (R33). -/
def Slot.destroyed : Slot :=
  { keyPtr := nullPtr, keySize := 0#32, fwd := Table.zero, inv := Table.zero, encCur := 0#32, decCur := 0#32 }

/-- A malformed slot (R19): a key size is declared with no key bound. -/
def Slot.malformed (sl : Slot) : Bool := decide (0#32 < sl.keySize) && decide (sl.keyPtr = nullPtr)

end Sys2Proof.Machine
end

