-- ==== Sys2Proof/Machine/State.lean ====
section
/-! DEFINITION. The state of the block (10_state.md R20, R38), system memory (20_memory.md R60), and the model's own
fields; the machine right after reset. -/

namespace Sys2Proof.Machine

/-- Why the machine could stop with a fault. No instruction of this hardware does: every command, the failing and the
illegal ones too, completes its `CMD` write with an outcome in `STATUS` (R230, R236), memory accesses cannot fail
(R66), and the block has no trap. So the type has no constructor. (Safe: nothing stops.) -/
inductive Fault where
  deriving DecidableEq, Repr

/-- Why a step could be refused. -/
inductive Refusal where
  /-- Raised by an arm of `exec` for an instruction without a meaning. Safe: the machine stops. No arm raises it. -/
  | notModelled (mnemonic : String)
  deriving DecidableEq, Repr

/-- All the state there is. Registers hold their implemented bits only, since reserved bits read 0 and ignore writes
(R36). -/
structure State where
  /-- `BASE`, the Base Table shared by all slots (R21). -/
  base : Table
  /-- The context slots `ctx[0] .. ctx[P_NCTX-1]` (R22); `P_NCTX` is the length of the list (log entry 1). -/
  ctx : List Slot
  /-- `SFWD`, scratch of the validator (R25). -/
  sfwd : Table
  /-- `SINV`, scratch of the validator (R25). -/
  sinv : Table
  /-- `STATUS.ERR`, bits 3:0 (R29). -/
  statusErr : BitVec 4
  /-- `STATUS.RESULT`, bit 8 (R29). -/
  statusResult : Bool
  /-- `MODE.LIT`, bit 0 (R30). -/
  modeLit : Bool
  /-- `ARG_KEY_PTR` (R27). -/
  argKeyPtr : Word
  /-- `ARG_KEY_SIZE` (R27). -/
  argKeySize : Word
  /-- `ARG_BUF_PTR` (R27). -/
  argBufPtr : Word
  /-- `ARG_BUF_SIZE` (R27). -/
  argBufSize : Word
  /-- `ARG_SRC_PTR` (R27). -/
  argSrcPtr : Word
  /-- `ARG_SRC_LEN` (R27). -/
  argSrcLen : Word
  /-- `WIN_CTX`, bits 3:0 (R31). -/
  winCtx : BitVec 4
  /-- `WIN_TADDR`, bits 10:0 (R34). -/
  winTaddr : BitVec 11
  /-- System memory, owned by the host and the platform (R60). -/
  mem : Memory
  /-- The model's own: the parameter `P_LIT_ENC_CURSOR_SRC` (R8, R175). Never written. Log entry 1. -/
  litEncCursorSrc : CursorSrc
  /-- The model's own: what the host will do, first transaction first. Each step performs one (R17, R212; R24: "the
  sequence of commands is an input"). Log entry 6. -/
  pending : List HostOp
  /-- The model's own: what reads and loads have given the host, oldest first. Log entry 6. -/
  replies : List Reply
  /-- The model's own: how many commands have completed, the index from which free values are drawn. Log entry 3. -/
  freeSeq : Nat
  deriving DecidableEq, Repr

/-- The machine right after reset (R38, R260) for given values of the open parameters, with nothing yet written to
memory and nothing yet pending. -/
def State.resetWith (p : Params) : State :=
  { base := Table.ident
    ctx := List.replicate p.nctx Slot.destroyed
    sfwd := Table.zero
    sinv := Table.zero
    statusErr := 0#4
    statusResult := false
    modeLit := false
    argKeyPtr := 0#32
    argKeySize := 0#32
    argBufPtr := 0#32
    argBufSize := 0#32
    argSrcPtr := 0#32
    argSrcLen := 0#32
    winCtx := 0#4
    winTaddr := 0#11
    mem := []
    litEncCursorSrc := p.litEncCursorSrc
    pending := []
    replies := []
    freeSeq := 0 }

/-- The machine right after reset (R38, R260), with the suggested values of the open parameters (R8; log entry 1). -/
def State.reset : State := State.resetWith Params.suggested

end Sys2Proof.Machine
end

