-- ==== Sys2Proof/Machine/Flags.lean ====
section
/-! DEFINITION. The block's two flags, `STATUS.ERR` and `STATUS.RESULT` (10_state.md R29, R39), and the error kinds
(60_exceptions.md R230). -/

namespace Sys2Proof.Machine

/-- The error kinds (R230). -/
inductive ErrKind where
  | fault
  | invalidArgument
  | notFound
  | io
  | illegalCommand
  deriving DecidableEq, Repr

/-- The numeric codes (R230). -/
def ErrKind.code : ErrKind → BitVec 4
  | .fault => 1#4
  | .invalidArgument => 2#4
  | .notFound => 3#4
  | .io => 4#4
  | .illegalCommand => 5#4

/-- `STATUS` as the host reads it (R29, R210): `RESULT` in bit 8, `ERR` in bits 3:0, zeros elsewhere. -/
def State.statusWord (s : State) : Word := 0#23 ++ BitVec.ofBool s.statusResult ++ 0#4 ++ s.statusErr

/-- The end of a command: both flags are overwritten (R29, R39) and the `CMD` write completes. The model's counter of
completed commands moves on, so that no two commands draw the same free value (log entry 3). -/
def State.complete (s : State) (err : BitVec 4) (result : Bool) : State :=
  { s with statusErr := err, statusResult := result, freeSeq := s.freeSeq + 1 }

/-- `return OK` (R14). -/
def State.succeed (s : State) : State := s.complete 0#4 false

/-- `return` with the validator's verdict (R162). -/
def State.succeedWith (s : State) (verdict : Bool) : State := s.complete 0#4 verdict

end Sys2Proof.Machine
end

