-- ==== Sys2Proof/Machine/Operands.lean ====
section
/-! DEFINITION. The operand forms: the slot a `CTX` field names (30_encoding.md R93, R94), the byte sequences the pointer
registers name (20_memory.md R62, R80), the window's selections (10_state.md R31, R34), and whether two sequences
overlap (70_reset_and_hazards.md R276). -/

namespace Sys2Proof.Machine

/-- `P_NCTX` (R8): the number of context slots. -/
def State.nctx (s : State) : Nat := s.ctx.length

/-- The slot a `CTX` field names, or none when `c >= P_NCTX`: an absent context (R93, R232). -/
def State.slot (s : State) (c : Nat) : Option Slot := s.ctx[c]?

/-- `ctx[c] <- sl`. -/
def State.setSlot (s : State) (c : Nat) (sl : Slot) : State := { s with ctx := s.ctx.set c sl }

/-- The bytes of a sequence of `n` bytes at `ptr`, in ascending address order (R62, R73, R80). -/
def Memory.bytesAt (m : Memory) (ptr : Word) (n : Nat) : List Byte :=
  (List.range n).map fun j => m.read (elemAddr ptr j)

/-- The key bytes of a slot, in key order, as memory holds them now (R68, R140). -/
def Memory.keyOf (m : Memory) (sl : Slot) : List Byte := m.bytesAt sl.keyPtr sl.keySize.toNat

/-- The Base Table source (R63, R200): entry `i` is the byte at `ptr +a i`. -/
def Memory.tableAt (m : Memory) (ptr : Word) : Table := Table.ofFun fun i => m.read (elemAddr ptr i.toNat)

/-- Two non-empty sequences share an address (R276; 93_implementation_defined.md U4): one starts inside the other, with
addresses taken modulo `2^32` (R69). -/
def overlaps (p : Word) (np : Nat) (q : Word) (nq : Nat) : Bool :=
  decide ((q - p).toNat < np) || decide ((p - q).toNat < nq)

/-- The key index after `cur` (R173 to R175, R180 (c)): 0 when `cur + 1 = key_size`, else `cur + 1`. -/
def nextCursor (keySize cur : Word) : Word := if cur + 1#32 = keySize then 0#32 else cur + 1#32

/-- The slot the window shows (R31): none when `WIN_CTX >= P_NCTX`. -/
def State.winSlot (s : State) : Option Slot := s.slot s.winCtx.toNat

/-- `WIN_TADDR[7:0]`, the entry index (R34). -/
def State.winIdx (s : State) : Byte := s.winTaddr.extractLsb' 0 8

/-- `WIN_TADDR[10:8]`, the table select (R34). -/
def State.winSel (s : State) : BitVec 3 := s.winTaddr.extractLsb' 8 3

end Sys2Proof.Machine
end

