-- ==== Sys2Proof/Machine/Ops.lean ====
section
/-! DEFINITION. The operations the commands share: the error outcome (60_exceptions.md R236), `derive`
(41_table_generator.md R140), `validate` (42_table_validator.md R160), the per-byte loop of the transforms
(43_transform.md R173 to R175), and the reset of the block (70_reset_and_hazards.md R260). -/

namespace Sys2Proof.Machine

/-- `raise <Kind>` (R14, R236), the hardware's only exception: `ERR` gets the kind's code, `RESULT` 0, and the `CMD`
write completes. Nothing is saved, no mode changes, and there is no handler and no return (R237). -/
def State.raise (s : State) (k : ErrKind) : State := s.complete k.code false

/-- An illegal command word (R95): `IllegalCommand`, and nothing else changes. -/
def State.illegalCommand (s : State) : State := s.raise .illegalCommand

/-- `derive(BASE, key_ptr, key_size)` (R140) for the key binding of `sl`: the forward table, and its inverse. -/
def State.derive (s : State) (sl : Slot) : Table × Table :=
  let F := s.base.forward (s.mem.keyOf sl)
  (F, F.invert (Config.undefinedInverse s.freeSeq))

/-- `sl` with the tables that `derive` gives now (R120, R145). -/
def State.regenerate (s : State) (sl : Slot) : Slot :=
  { sl with fwd := (s.derive sl).1, inv := (s.derive sl).2 }

/-- `validate(c)` (R160): it raises, or it gives the verdict and a state in which the scratch tables are cleared. -/
def State.validate (s : State) (c : Nat) : Except ErrKind (Bool × State) :=
  match s.slot c with
  | none => .error .invalidArgument
  | some sl =>
    if sl.malformed then .error .invalidArgument
    else
      let scratch := { s with sfwd := (s.derive sl).1, sinv := (s.derive sl).2 }
      let ok := scratch.sfwd.same sl.fwd && scratch.sinv.same sl.inv
      .ok (ok, { scratch with sfwd := Table.zero, sinv := Table.zero })

/-- The key byte the loop combines with buffer byte `n` when the cursor is `cur` (R173 to R175): the byte at
`key_ptr +a cur`, or a free value where the spec promises none (`draw = some q`). -/
def loopKeyByte (draw : Option Nat) (sl : Slot) (n : Nat) (cur : Word) (m : Memory) : Byte :=
  match draw with
  | some q => Config.undefinedKeyByte q n
  | none => m.read (elemAddr sl.keyPtr cur.toNat)

/-- The per-byte loop (R173 to R175) from buffer byte `n` on, `count` bytes: read the buffer byte, read the key byte,
write the combined byte, move the cursor. It gives memory and cursor as they then are. -/
def transformLoop (draw : Option Nat) (sl : Slot) (buf : Word) (combine : Byte → Byte → Byte) :
    (count n : Nat) → (cur : Word) → Memory → Memory × Word
  | 0, _, cur, m => (m, cur)
  | count + 1, n, cur, m =>
    let o := combine (m.read (elemAddr buf n)) (loopKeyByte draw sl n cur m)
    transformLoop draw sl buf combine count (n + 1) (nextCursor sl.keySize cur) (m.write (elemAddr buf n) o)

/-- Where the spec promises no key bytes for the loop, the index from which free ones are drawn: a start cursor outside
the key (93_implementation_defined.md U3), a buffer that overlaps the key (U4). -/
def State.loopDraw (s : State) (sl : Slot) (cur : Word) : Option Nat :=
  if sl.keySize ≤ cur || overlaps s.argBufPtr s.argBufSize.toNat sl.keyPtr sl.keySize.toNat then some s.freeSeq
  else none

/-- The loop over the whole buffer from start cursor `cur` (R173 to R175): memory after it, and the cursor to write
back, which is a free value after a start cursor outside the key (U3). -/
def State.transform (s : State) (sl : Slot) (cur : Word) (combine : Byte → Byte → Byte) : Memory × Word :=
  let r := transformLoop (s.loopDraw sl cur) sl s.argBufPtr combine s.argBufSize.toNat 0 cur s.mem
  (r.1, if sl.keySize ≤ cur then Config.undefinedCursor s.freeSeq else r.2)

/-- The block's reset (R38, R260): every piece of the block's state at its reset value. System memory is not changed, nor
the parameters, nor what is the model's own. -/
def State.assertReset (s : State) : State :=
  { State.resetWith { nctx := s.nctx, litEncCursorSrc := s.litEncCursorSrc } with
    mem := s.mem, pending := s.pending, replies := s.replies, freeSeq := s.freeSeq }

end Sys2Proof.Machine
end

