-- ==== Sys2Proof/Machine/BaseLoader.lean ====
section
/-! DEFINITION. `LDBASE` (44_base_table_loader.md R200). -/

namespace Sys2Proof.Machine

/-- `LDBASE` (R200): `NotFound` before `IO`; else all 256 entries of `BASE` are replaced together. -/
def execLdbase (s : State) : Host.Outcome State Fault Refusal :=
  if s.argSrcPtr = nullPtr then .next (s.raise .notFound)
  else if s.argSrcLen < 256#32 then .next (s.raise .io)
  else .next { s with base := s.mem.tableAt s.argSrcPtr }.succeed

end Sys2Proof.Machine
end

