-- ==== Sys2Proof/Machine/Context.lean ====
section
/-! DEFINITION. `INIT` and `TEARDOWN` (40_context.md R120 to R123). -/

namespace Sys2Proof.Machine

/-- Slot `c` bound to the key the operand registers name, cursors zeroed, tables not yet derived (R120). -/
def State.boundSlot (s : State) (old : Slot) : Slot :=
  { old with keyPtr := s.argKeyPtr, keySize := s.argKeySize, encCur := 0#32, decCur := 0#32 }

/-- `INIT c` (R120). -/
def execInit (c : Nat) (s : State) : Host.Outcome State Fault Refusal :=
  match s.slot c with
  | none => .next (s.raise .invalidArgument)
  | some old =>
    let bound := s.boundSlot old
    if bound.malformed then .next ((s.setSlot c Slot.destroyed).raise .invalidArgument)
    else .next ((s.setSlot c (s.regenerate bound)).succeed)

/-- `TEARDOWN c` (R121). -/
def execTeardown (c : Nat) (s : State) : Host.Outcome State Fault Refusal :=
  match s.slot c with
  | none => .next (s.raise .invalidArgument)
  | some _ => .next ((s.setSlot c Slot.destroyed).succeed)

end Sys2Proof.Machine
end

