-- ==== Sys2Proof/Machine/Generator.lean ====
section
/-! DEFINITION. `GEN` (41_table_generator.md R145, R148). -/

namespace Sys2Proof.Machine

/-- `GEN c` (R145). -/
def execGen (c : Nat) (s : State) : Host.Outcome State Fault Refusal :=
  match s.slot c with
  | none => .next (s.raise .invalidArgument)
  | some sl =>
    if sl.malformed then .next (s.raise .invalidArgument)
    else .next ((s.setSlot c (s.regenerate sl)).succeed)

end Sys2Proof.Machine
end

