-- ==== Sys2Proof/Machine/Transform.lean ====
section
/-! DEFINITION. `ENC`, corrected and literal, and `DEC` (43_transform.md R170 to R175). -/

namespace Sys2Proof.Machine

/-- What the common prologue answers (R171): the command ends in a state, or the loop runs with a slot. -/
inductive Prologue where
  | ends (s : State)
  | runs (sl : Slot) (s : State)
  deriving DecidableEq, Repr

/-- The common prologue (R171), its checks in the order (1) to (6); the no-op case is R172. -/
def transformPrologue (c : Nat) (s : State) : Prologue :=
  match s.slot c with
  | none => .ends (s.raise .invalidArgument)
  | some sl =>
    if s.argBufPtr = nullPtr then .ends (s.raise .fault)
    else if sl.malformed then .ends (s.raise .invalidArgument)
    else if sl.keySize = 0#32 ∨ s.argBufSize = 0#32 then .ends s.succeed
    else
      match s.validate c with
      | .error k => .ends (s.raise k)
      | .ok (false, s') => .ends (s'.raise .invalidArgument)
      | .ok (true, s') => .runs sl s'

/-- Per byte, `DEC` (R173): substitute through `INV`, then XOR with the key byte. -/
def Slot.decByte (sl : Slot) (b k : Byte) : Byte := sl.inv.entry b ^^^ k

/-- Per byte, the corrected `ENC` (R174): XOR with the key byte, then substitute through `FWD`. -/
def Slot.encByte (sl : Slot) (b k : Byte) : Byte := sl.fwd.entry (b ^^^ k)

/-- Per byte, the literal `ENC` (R175): XOR with the key byte, then substitute through `INV`. -/
def Slot.encByteLiteral (sl : Slot) (b k : Byte) : Byte := sl.inv.entry (b ^^^ k)

/-- The cursor from which the literal `ENC` takes its start index (R175, `P_LIT_ENC_CURSOR_SRC`). -/
def Slot.literalStart (sl : Slot) (src : CursorSrc) : Word :=
  match src with
  | .enc => sl.encCur
  | .dec => sl.decCur

/-- The loop of `DEC` and its cursor (R173). -/
def State.runDec (s : State) (c : Nat) (sl : Slot) : State :=
  let r := s.transform sl sl.decCur sl.decByte
  ({ s with mem := r.1 }.setSlot c { sl with decCur := r.2 }).succeed

/-- The loop of the corrected `ENC` and its cursor (R174). -/
def State.runEnc (s : State) (c : Nat) (sl : Slot) : State :=
  let r := s.transform sl sl.encCur sl.encByte
  ({ s with mem := r.1 }.setSlot c { sl with encCur := r.2 }).succeed

/-- The loop of the literal `ENC`, which writes the decryption cursor (R175). -/
def State.runEncLiteral (s : State) (c : Nat) (sl : Slot) : State :=
  let r := s.transform sl (sl.literalStart s.litEncCursorSrc) sl.encByteLiteral
  ({ s with mem := r.1 }.setSlot c { sl with decCur := r.2 }).succeed

/-- `ENC c` (R174, R175): `MODE.LIT` selects the variant (R30). -/
def execEnc (c : Nat) (s : State) : Host.Outcome State Fault Refusal :=
  match transformPrologue c s with
  | .ends s' => .next s'
  | .runs sl s' => .next (if s'.modeLit then s'.runEncLiteral c sl else s'.runEnc c sl)

/-- `DEC c` (R173), the same in both variants. -/
def execDec (c : Nat) (s : State) : Host.Outcome State Fault Refusal :=
  match transformPrologue c s with
  | .ends s' => .next s'
  | .runs sl s' => .next (s'.runDec c sl)

end Sys2Proof.Machine
end

