-- ==== Sys2Proof/Machine/Validator.lean ====
section
/-! DEFINITION. `VALIDATE` (42_table_validator.md R162). -/

namespace Sys2Proof.Machine

/-- `VALIDATE c` (R162). -/
def execValidate (c : Nat) (s : State) : Host.Outcome State Fault Refusal :=
  match s.validate c with
  | .error k => .next (s.raise k)
  | .ok (verdict, s') => .next (s'.succeedWith verdict)

end Sys2Proof.Machine
end

