-- ==== Sys2Proof/Machine/Dispatch.lean ====
section
/-! DEFINITION. One arm per command (30_encoding.md R92). -/

namespace Sys2Proof.Machine

def exec (i : Instr) (s : State) : Host.Outcome State Fault Refusal :=
  match i with
  | .init c => Sys2Proof.Machine.execInit c s
  | .gen c => Sys2Proof.Machine.execGen c s
  | .validate c => Sys2Proof.Machine.execValidate c s
  | .enc c => Sys2Proof.Machine.execEnc c s
  | .dec c => Sys2Proof.Machine.execDec c s
  | .ldbase => Sys2Proof.Machine.execLdbase s
  | .teardown c => Sys2Proof.Machine.execTeardown c s

end Sys2Proof.Machine
end

