-- ==== Sys2Proof/Machine/HostPort.lean ====
section
/-! DEFINITION. What each host transaction does (45_register_access.md R210 to R212; 10_state.md R26 to R36; 20_memory.md
R66; 70_reset_and_hazards.md R260), and the scripts of 30_encoding.md R98 to R100. -/

namespace Sys2Proof.Machine

/-- A read of `WIN_TDATA` (R34, R210): the selected entry, or 0 when no table is selected. -/
def State.winData (s : State) : Word :=
  match s.winSel.toNat with
  | 0 => (s.winSlot.map fun sl => (sl.fwd.entry s.winIdx).setWidth 32).getD 0#32
  | 1 => (s.winSlot.map fun sl => (sl.inv.entry s.winIdx).setWidth 32).getD 0#32
  | 2 => (s.base.entry s.winIdx).setWidth 32
  | 3 => (s.sfwd.entry s.winIdx).setWidth 32
  | 4 => (s.sinv.entry s.winIdx).setWidth 32
  | _ => 0#32

/-- `rd i` (R210): the word a read of the register gives. It changes nothing. -/
def State.readReg (s : State) (r : Reg) : Word :=
  match r with
  | .cmd => 0#32
  | .status => s.statusWord
  | .mode => (BitVec.ofBool s.modeLit).setWidth 32
  | .argKeyPtr => s.argKeyPtr
  | .argKeySize => s.argKeySize
  | .argBufPtr => s.argBufPtr
  | .argBufSize => s.argBufSize
  | .argSrcPtr => s.argSrcPtr
  | .argSrcLen => s.argSrcLen
  | .winCtx => s.winCtx.setWidth 32
  | .winKeyPtr => (s.winSlot.map Slot.keyPtr).getD 0#32
  | .winKeySize => (s.winSlot.map Slot.keySize).getD 0#32
  | .winEncCur => (s.winSlot.map Slot.encCur).getD 0#32
  | .winDecCur => (s.winSlot.map Slot.decCur).getD 0#32
  | .winTaddr => s.winTaddr.setWidth 32
  | .winTdata => s.winData
  | .id => Config.idValue
  | .nctx => BitVec.ofNat 32 s.nctx
  | .unimplemented => 0#32

/-- A change of the slot the window shows; nothing when it shows none (R32, R34). -/
def State.updateWinSlot (s : State) (f : Slot → Slot) : State :=
  match s.winSlot with
  | some sl => s.setSlot s.winCtx.toNat (f sl)
  | none => s

/-- A write of `WIN_TDATA` (R34, R211): `FWD` and `INV` only. -/
def State.writeWinData (s : State) (b : Byte) : State :=
  match s.winSel.toNat with
  | 0 => s.updateWinSlot fun sl => { sl with fwd := sl.fwd.put s.winIdx b }
  | 1 => s.updateWinSlot fun sl => { sl with inv := sl.inv.put s.winIdx b }
  | _ => s

/-- `CMD <- v` (R28, R93, R211): the command encoded by `v` runs to its end; an illegal word is reported (R95). -/
def commandWrite (v : Word) (s : State) : Host.Outcome State Fault Refusal :=
  match decode v with
  | .ok i => exec i s
  | .error _ => .next s.illegalCommand

/-- `wr i, v` for a register other than `CMD` (R211). -/
def State.writeReg (s : State) (r : Reg) (v : Word) : State :=
  match r with
  | .cmd => s
  | .status => s
  | .mode => { s with modeLit := v.getLsbD 0 }
  | .argKeyPtr => { s with argKeyPtr := v }
  | .argKeySize => { s with argKeySize := v }
  | .argBufPtr => { s with argBufPtr := v }
  | .argBufSize => { s with argBufSize := v }
  | .argSrcPtr => { s with argSrcPtr := v }
  | .argSrcLen => { s with argSrcLen := v }
  | .winCtx => { s with winCtx := v.extractLsb' 0 4 }
  | .winKeyPtr => s.updateWinSlot fun sl => { sl with keyPtr := v }
  | .winKeySize => s.updateWinSlot fun sl => { sl with keySize := v }
  | .winEncCur => s
  | .winDecCur => s
  | .winTaddr => { s with winTaddr := v.extractLsb' 0 11 }
  | .winTdata => s.writeWinData (v.extractLsb' 0 8)
  | .id => s
  | .nctx => s
  | .unimplemented => s

/-- One host transaction, from its start to its end (R17, R70, R212). -/
def transact (op : HostOp) (s : State) : Host.Outcome State Fault Refusal :=
  match op with
  | .read i => .next { s with replies := s.replies ++ [.word (s.readReg (Reg.ofIndex i))] }
  | .write i v =>
    match Reg.ofIndex i with
    | .cmd => commandWrite v s
    | r => .next (s.writeReg r v)
  | .load a => .next { s with replies := s.replies ++ [.byte (s.mem.read a)] }
  | .store a b => .next { s with mem := s.mem.write a b }
  | .reset => .next s.assertReset

/-- The host's next transaction, or nothing: the block is idle between transactions (R24, R245). -/
def nextTransaction (s : State) : Host.Outcome State Fault Refusal :=
  match s.pending with
  | [] => .next s
  | op :: rest => transact op { s with pending := rest }

/-- `wr <REG>, <value>` (R98). -/
def wr (r : Reg) (v : Word) : HostOp := .write r.index v

/-- `rd <REG>` (R98). -/
def rd (r : Reg) : HostOp := .read r.index

/-- `mem[<addr>] := <bytes>` (R98): stores at ascending addresses. -/
def storeBytes (a : Word) (bytes : List Byte) : List HostOp :=
  bytes.zipIdx.map fun bj => .store (elemAddr a bj.2) bj.1

/-- A mnemonic: one `CMD` write of the command's word (R99). -/
def command (i : Instr) : HostOp := wr .cmd (encode i)

/-- `KEYINIT c, p, n` (R100). -/
def keyinit (c : Nat) (p n : Word) : List HostOp := [wr .argKeyPtr p, wr .argKeySize n, command (.init c)]

/-- `ENCRYPT c, p, n` (R100). -/
def encrypt (c : Nat) (p n : Word) : List HostOp := [wr .argBufPtr p, wr .argBufSize n, command (.enc c)]

/-- `DECRYPT c, p, n` (R100). -/
def decrypt (c : Nat) (p n : Word) : List HostOp := [wr .argBufPtr p, wr .argBufSize n, command (.dec c)]

/-- `LOADBASE p, n` (R100). -/
def loadbase (p n : Word) : List HostOp := [wr .argSrcPtr p, wr .argSrcLen n, command .ldbase]

/-- `PEEK c, s, i` (R100). -/
def peek (c : Word) (sel : Word) (i : Byte) : List HostOp :=
  [wr .winCtx c, wr .winTaddr (0x100#32 * sel + i.setWidth 32), rd .winTdata]

/-- `POKE c, s, i, v` (R100). -/
def poke (c : Word) (sel : Word) (i : Byte) (v : Word) : List HostOp :=
  [wr .winCtx c, wr .winTaddr (0x100#32 * sel + i.setWidth 32), wr .winTdata v]

end Sys2Proof.Machine
end

