-- ==== Sys2Proof/Machine/Step.lean ====
section
/-! DEFINITION. One step is one host transaction (00_scope.md R17; 45_register_access.md R212). -/

namespace Sys2Proof.Machine

/-- The machine performs the host's next transaction (R17), or stays as it is when there is none. -/
def step (s : State) : Host.Outcome State Fault Refusal := nextTransaction s

/-- The host's next transaction is a write to `CMD` of the word with these bits (R28, R90); what was pending stays
pending behind it. -/
def State.withFetchWord (s : State) (nbits w : Nat) : State :=
  { s with pending := .write Reg.cmd.index (tableWord nbits w) :: s.pending }

end Sys2Proof.Machine
end

