-- ==== Sys2Proof/Safety.lean ====
section
/-! DEFINITION. The terms the claims use: the invariant of the machine, when a slot's tables are valid, when the spec
promises the result of a transform, and what a command must leave alone. -/

namespace Sys2Proof.Machine

/-- A run is safe here when the machine can go on: it answers a next state, no fault and no refusal. -/
def State.goesOn (s : State) : Prop := ∃ t, step s = .next t

/-- The invariant of the machine between host transactions. -/
structure State.Inv (s : State) : Prop where
  /-- Memory is in its canonical form. -/
  memCanonical : s.mem.wf
  /-- `P_NCTX` is in 1..16 (R8). -/
  slotCount : 1 ≤ s.nctx ∧ s.nctx ≤ 16
  /-- The scratch tables are cleared whenever the host can look (R25). -/
  scratchFwd : s.sfwd = Table.zero
  scratchInv : s.sinv = Table.zero
  /-- The codes 6 to 15 are never produced (R230). -/
  errCode : s.statusErr ≤ 5#4
  /-- `RESULT` is 1 only with `ERR = 0` (R29). -/
  resultOnSuccess : s.statusResult = true → s.statusErr = 0#4

/-- `validate` would return valid for this slot (R161): its tables are what `derive` gives now. -/
def State.tablesValid (s : State) (sl : Slot) : Prop := sl.fwd = (s.derive sl).1 ∧ sl.inv = (s.derive sl).2

/-- The cursor invariant of a slot (I3 of R23). -/
def Slot.cursorsInKey (sl : Slot) : Prop := 0#32 < sl.keySize → sl.encCur < sl.keySize ∧ sl.decCur < sl.keySize

/-- `ENC c` and `DEC c` reach their loop with slot `sl` (R171). -/
structure State.LoopReached (s : State) (c : Nat) (sl : Slot) : Prop where
  slot : s.slot c = some sl
  bufferPresent : s.argBufPtr ≠ nullPtr
  keyBound : sl.keyPtr ≠ nullPtr
  keyNonempty : 0#32 < sl.keySize
  bufferNonempty : 0#32 < s.argBufSize
  valid : s.tablesValid sl

/-- The cursor from which a transform takes its start index: `DEC` (R173), the corrected `ENC` (R174), the literal `ENC`, where
the open parameter says which (R175). The other commands take none. -/
def State.startCursor (s : State) (i : Instr) (sl : Slot) : Word :=
  match i with
  | .enc _ => if s.modeLit = false ∨ s.litEncCursorSrc = .enc then sl.encCur else sl.decCur
  | .dec _ | .init _ | .gen _ | .validate _ | .ldbase | .teardown _ => sl.decCur

/-- The spec promises the loop's result from start cursor `cur` (R173 (c), (d); R275, R276; 93_implementation_defined.md U1,
U3, U4): `BASE` is a permutation, the cursor is inside the key, and buffer and key share no address. -/
structure State.LoopPromised (s : State) (sl : Slot) (cur : Word) : Prop where
  basePermutation : s.base.isPerm = true
  cursor : cur < sl.keySize
  disjoint : ∀ n < s.argBufSize.toNat, ∀ j < sl.keySize.toNat,
    elemAddr s.argBufPtr n ≠ elemAddr sl.keyPtr j

/-- What no command writes (R40): `MODE`, the operand and window registers, the parameters, and the host's side. -/
structure State.RegistersKept (s t : State) : Prop where
  modeLit : t.modeLit = s.modeLit
  argKeyPtr : t.argKeyPtr = s.argKeyPtr
  argKeySize : t.argKeySize = s.argKeySize
  argBufPtr : t.argBufPtr = s.argBufPtr
  argBufSize : t.argBufSize = s.argBufSize
  argSrcPtr : t.argSrcPtr = s.argSrcPtr
  argSrcLen : t.argSrcLen = s.argSrcLen
  winCtx : t.winCtx = s.winCtx
  winTaddr : t.winTaddr = s.winTaddr
  nctx : t.nctx = s.nctx
  litEncCursorSrc : t.litEncCursorSrc = s.litEncCursorSrc
  pending : t.pending = s.pending
  replies : t.replies = s.replies

/-- Every slot but `c` is unchanged (R123). -/
def State.OtherSlotsKept (c : Nat) (s t : State) : Prop := ∀ d, d ≠ c → t.slot d = s.slot d

/-- Every byte of memory reads as before. -/
def State.MemoryKept (s t : State) : Prop := ∀ a, t.mem.read a = s.mem.read a

/-- Every byte of memory outside the buffer, the `ARG_BUF_SIZE` bytes at `ARG_BUF_PTR`, reads as before (R61). -/
def State.MemoryKeptOutsideBuffer (s t : State) : Prop :=
  ∀ a, (∀ n < s.argBufSize.toNat, a ≠ elemAddr s.argBufPtr n) → t.mem.read a = s.mem.read a

/-- The frame of a command that stores nothing and writes at most slot `c` and `STATUS`. -/
structure State.KeptButSlot (c : Nat) (s t : State) : Prop where
  base : t.base = s.base
  sfwd : t.sfwd = s.sfwd
  sinv : t.sinv = s.sinv
  otherSlots : State.OtherSlotsKept c s t
  registers : State.RegistersKept s t
  memory : State.MemoryKept s t

/-- `s` with the flags of a completed command, the model's counter moved on, and nothing else changed. -/
def State.withStatus (s : State) (err : BitVec 4) (result : Bool) : State :=
  { s with statusErr := err, statusResult := result, freeSeq := s.freeSeq + 1 }

/-- The key byte at index `j` of a slot's key, as memory holds it (R13, `key(c, j)`). -/
def State.keyByte (s : State) (sl : Slot) (j : Nat) : Byte := s.mem.read (elemAddr sl.keyPtr j)

/-- Buffer byte `n`, as memory holds it. -/
def State.bufByte (s : State) (n : Nat) : Byte := s.mem.read (elemAddr s.argBufPtr n)

/-- The slot number of the commands that take one (R92). -/
def ctxOf : Instr → Option Nat
  | .init c => some c
  | .gen c => some c
  | .validate c => some c
  | .enc c => some c
  | .dec c => some c
  | .ldbase => none
  | .teardown c => some c

end Sys2Proof.Machine
end

