-- ==== Sys2Proof/Certificates/Slice0/Obligations.lean ====
section
/-! DEFINITION. The statements for the provers. OBLIGATIONS.json lists them with the rules they formalise. -/

open Sys2Proof Sys2Proof.Machine

/-! ### The encoding (30_encoding.md) -/

/-- Decoding the encoded word of a well-formed command gives the command back, whatever its slot number. -/
def Obligations.DecodeEncodeRoundTrip : Prop :=
  ∀ i : Instr, i.wellFormed = true → decode (encode i) = .ok i

/-- A legal word has one meaning: it is the word of the command it decodes to, and that command is well formed. -/
def Obligations.EncodeDecodeRoundTrip : Prop :=
  ∀ (w : Word) (i : Instr), decode w = .ok i → i.wellFormed = true ∧ encode i = w

/-- R93: a matching row decides the command, with `c = w[11:8]`; so no two rows match one word with different commands; a
word without a matching row is illegal. -/
def Obligations.DecodingFollowsTheOpcodeMap : Prop :=
  ∀ w : Word,
    (∀ r ∈ opcodeTable, w &&& r.mask = r.pattern → decode w = .ok (r.build (w.extractLsb' 8 4).toNat)) ∧
    ((∀ r ∈ opcodeTable, w &&& r.mask ≠ r.pattern) → ∃ why, decode w = .error why)

/-- R95: exactly the listed words are illegal, and writing one to `CMD` sets `ERR` to 5 and `RESULT` to 0 and changes
nothing else (the model's own counter of completed commands moves on, log entry 3). -/
def Obligations.IllegalWordsAreReportedAndChangeNothing : Prop :=
  ∀ w : Word,
    ((∃ why, decode w = .error why) ↔
      (w.extractLsb' 0 8 = 0x00#8 ∨ 0x08#8 ≤ w.extractLsb' 0 8 ∨ w.extractLsb' 12 20 ≠ 0#20 ∨
        (w.extractLsb' 0 8 = 0x06#8 ∧ w.extractLsb' 8 4 ≠ 0#4))) ∧
    ∀ (s : State) (rest : List HostOp) (why : Reject), s.pending = .write 0#6 w :: rest → decode w = .error why →
      step s = .next { s with pending := rest, statusErr := 5#4, statusResult := false, freeSeq := s.freeSeq + 1 }

/-- Words written out from the encoding of R91 and R92 decode to the commands they stand for. -/
def Obligations.WrittenOutWordsDecode : Prop :=
  decode 0b00000000000000000000_0000_00000001#32 = .ok (.init 0) ∧
  decode 0b00000000000000000000_0001_00000010#32 = .ok (.gen 1) ∧
  decode 0b00000000000000000000_0010_00000011#32 = .ok (.validate 2) ∧
  decode 0b00000000000000000000_0111_00000100#32 = .ok (.enc 7) ∧
  decode 0b00000000000000000000_1000_00000101#32 = .ok (.dec 8) ∧
  decode 0b00000000000000000000_0000_00000110#32 = .ok .ldbase ∧
  decode 0b00000000000000000000_1111_00000111#32 = .ok (.teardown 15) ∧
  decode 0b00000000000000000000_0000_00000000#32 = .error .unknownOpcode ∧
  decode 0b00000000000000000001_0000_00000001#32 = .error .reservedBits ∧
  decode 0b00000000000000000000_0001_00000110#32 = .error .ldbaseContext

/-! ### Host transactions (45_register_access.md, 10_state.md, 20_memory.md) -/

/-- When the host's next transaction writes to `CMD` a word that decodes to `i`, the step is `exec` of `i` on the state
whose host queue has moved on; and the word that `withFetchWord` places is run so, on the very state it was placed in. -/
def Obligations.StepRunsTheDecodedCommand : Prop :=
  (∀ (s : State) (w : Word) (rest : List HostOp) (i : Instr), s.pending = .write 0#6 w :: rest → decode w = .ok i →
    i.wellFormed = true ∧ step s = exec i { s with pending := rest }) ∧
  (∀ (s : State) (w : Word) (i : Instr), decode w = .ok i → step (s.withFetchWord 32 w.toNat) = exec i s)

/-- Between transactions the block is idle: with no transaction pending, a step changes nothing. The model's reading of
an empty host queue (log entry 6). -/
def Obligations.IdleBlockChangesNothing : Prop := ∀ s : State, s.pending = [] → step s = .next s

/-- R210: what a read of each register index gives the host. It changes nothing else. -/
def Obligations.RegisterReadsGiveTheRegister : Prop :=
  ∀ (s : State) (rest : List HostOp) (i : RegIndex), s.pending = .read i :: rest →
    ∃ v : Word, step s = .next { s with pending := rest, replies := s.replies ++ [.word v] } ∧
      (i = 0#6 → v = 0#32) ∧
      (i = 1#6 → v.extractLsb' 0 4 = s.statusErr ∧ v.getLsbD 8 = s.statusResult ∧
        v.extractLsb' 4 4 = 0#4 ∧ v.extractLsb' 9 23 = 0#23) ∧
      (i = 2#6 → v = if s.modeLit then 1#32 else 0#32) ∧
      (i = 3#6 → v = s.argKeyPtr) ∧ (i = 4#6 → v = s.argKeySize) ∧
      (i = 5#6 → v = s.argBufPtr) ∧ (i = 6#6 → v = s.argBufSize) ∧
      (i = 7#6 → v = s.argSrcPtr) ∧ (i = 8#6 → v = s.argSrcLen) ∧
      (i = 9#6 → v.toNat = s.winCtx.toNat) ∧
      (∀ sl, s.slot s.winCtx.toNat = some sl →
        (i = 10#6 → v = sl.keyPtr) ∧ (i = 11#6 → v = sl.keySize) ∧
        (i = 12#6 → v = sl.encCur) ∧ (i = 13#6 → v = sl.decCur) ∧
        (i = 15#6 → s.winTaddr.extractLsb' 8 3 = 0#3 → v.toNat = (sl.fwd.entry (s.winTaddr.extractLsb' 0 8)).toNat) ∧
        (i = 15#6 → s.winTaddr.extractLsb' 8 3 = 1#3 → v.toNat = (sl.inv.entry (s.winTaddr.extractLsb' 0 8)).toNat)) ∧
      (s.nctx ≤ s.winCtx.toNat →
        (i = 10#6 → v = 0#32) ∧ (i = 11#6 → v = 0#32) ∧ (i = 12#6 → v = 0#32) ∧ (i = 13#6 → v = 0#32) ∧
        (i = 15#6 → s.winTaddr.extractLsb' 8 3 ≤ 1#3 → v = 0#32)) ∧
      (i = 14#6 → v.toNat = s.winTaddr.toNat) ∧
      (i = 15#6 → s.winTaddr.extractLsb' 8 3 = 2#3 → v.toNat = (s.base.entry (s.winTaddr.extractLsb' 0 8)).toNat) ∧
      (i = 15#6 → s.winTaddr.extractLsb' 8 3 = 3#3 → v.toNat = (s.sfwd.entry (s.winTaddr.extractLsb' 0 8)).toNat) ∧
      (i = 15#6 → s.winTaddr.extractLsb' 8 3 = 4#3 → v.toNat = (s.sinv.entry (s.winTaddr.extractLsb' 0 8)).toNat) ∧
      (i = 15#6 → 5#3 ≤ s.winTaddr.extractLsb' 8 3 → v = 0#32) ∧
      (i = 16#6 → v = 0x544D5043#32) ∧ (i = 17#6 → v = BitVec.ofNat 32 s.nctx) ∧ (18#6 ≤ i → v = 0#32)

/-- R211: what a write to each register index does. `t` is the state after the write; a write to `CMD` executes the command
encoded by the word, or reports an illegal word. -/
def Obligations.RegisterWritesDoWhatTheRuleSays : Prop :=
  ∀ (s : State) (rest : List HostOp) (i : RegIndex) (v : Word), s.pending = .write i v :: rest →
    ∀ s₀ : State, s₀ = { s with pending := rest } →
      (i = 0#6 → (∀ ins, decode v = .ok ins → step s = exec ins s₀) ∧
        (∀ why, decode v = .error why → step s = .next (s₀.withStatus 5#4 false))) ∧
      (i = 1#6 ∨ i = 12#6 ∨ i = 13#6 ∨ 16#6 ≤ i → step s = .next s₀) ∧
      (i = 2#6 → step s = .next { s₀ with modeLit := v.getLsbD 0 }) ∧
      (i = 3#6 → step s = .next { s₀ with argKeyPtr := v }) ∧
      (i = 4#6 → step s = .next { s₀ with argKeySize := v }) ∧
      (i = 5#6 → step s = .next { s₀ with argBufPtr := v }) ∧
      (i = 6#6 → step s = .next { s₀ with argBufSize := v }) ∧
      (i = 7#6 → step s = .next { s₀ with argSrcPtr := v }) ∧
      (i = 8#6 → step s = .next { s₀ with argSrcLen := v }) ∧
      (i = 9#6 → step s = .next { s₀ with winCtx := v.extractLsb' 0 4 }) ∧
      (i = 14#6 → step s = .next { s₀ with winTaddr := v.extractLsb' 0 11 }) ∧
      (∀ sl, s.slot s.winCtx.toNat = some sl →
        (i = 10#6 → step s = .next (s₀.setSlot s.winCtx.toNat { sl with keyPtr := v })) ∧
        (i = 11#6 → step s = .next (s₀.setSlot s.winCtx.toNat { sl with keySize := v })) ∧
        (i = 15#6 → s.winTaddr.extractLsb' 8 3 = 0#3 →
          step s = .next (s₀.setSlot s.winCtx.toNat
            { sl with fwd := sl.fwd.put (s.winTaddr.extractLsb' 0 8) (v.extractLsb' 0 8) })) ∧
        (i = 15#6 → s.winTaddr.extractLsb' 8 3 = 1#3 →
          step s = .next (s₀.setSlot s.winCtx.toNat
            { sl with inv := sl.inv.put (s.winTaddr.extractLsb' 0 8) (v.extractLsb' 0 8) }))) ∧
      (s.nctx ≤ s.winCtx.toNat → i = 10#6 ∨ i = 11#6 ∨ i = 15#6 → step s = .next s₀) ∧
      (i = 15#6 → 2#3 ≤ s.winTaddr.extractLsb' 8 3 → step s = .next s₀)

/-- R36: the indices 18 to 63 read 0, ignore writes and have no other effect; reserved bits of the implemented registers read
0 and ignore writes. -/
def Obligations.UnimplementedIndicesAndReservedBits : Prop :=
  ∀ (s : State) (rest : List HostOp) (i : RegIndex) (v : Word),
    (18#6 ≤ i →
      (s.pending = .read i :: rest → step s = .next { s with pending := rest, replies := s.replies ++ [.word 0#32] }) ∧
      (s.pending = .write i v :: rest → step s = .next { s with pending := rest })) ∧
    (s.readReg .status &&& 0xFFFFFEF0#32 = 0#32 ∧ s.writeReg .status v = s) ∧
    (s.readReg .mode &&& 0xFFFFFFFE#32 = 0#32 ∧ s.writeReg .mode v = s.writeReg .mode (v &&& 0x00000001#32)) ∧
    (s.readReg .winCtx &&& 0xFFFFFFF0#32 = 0#32 ∧ s.writeReg .winCtx v = s.writeReg .winCtx (v &&& 0x0000000F#32)) ∧
    (s.readReg .winTaddr &&& 0xFFFFF800#32 = 0#32 ∧ s.writeReg .winTaddr v = s.writeReg .winTaddr (v &&& 0x000007FF#32)) ∧
    (s.readReg .winTdata &&& 0xFFFFFF00#32 = 0#32 ∧ s.writeReg .winTdata v = s.writeReg .winTdata (v &&& 0x000000FF#32))

/-- A byte written through the window to `FWD` or `INV` of a present slot reads back, and every other entry of that table and
the other table are unchanged (R34). -/
def Obligations.PokedTableByteReadsBackAlone : Prop :=
  ∀ (s : State) (sl : Slot) (v : Word), s.slot s.winCtx.toNat = some sl → s.winTaddr.extractLsb' 8 3 ≤ 1#3 →
    ∃ (t : State) (sl' : Slot), (t = s.writeReg .winTdata v ∧ t.slot s.winCtx.toNat = some sl') ∧
      (t.readReg .winTdata).toNat = v.toNat % 256 ∧
      (∀ e : Byte, e ≠ s.winTaddr.extractLsb' 0 8 → sl'.fwd.entry e = sl.fwd.entry e ∧ sl'.inv.entry e = sl.inv.entry e) ∧
      (s.winTaddr.extractLsb' 8 3 = 0#3 → sl'.inv = sl.inv) ∧ (s.winTaddr.extractLsb' 8 3 = 1#3 → sl'.fwd = sl.fwd)

/-- R66: a load gives the byte last stored at the address; a store changes no other address. -/
def Obligations.HostLoadGivesTheByteLastStored : Prop :=
  ∀ (s : State) (a b : Word) (v : Byte) (rest : List HostOp), s.mem.wf → s.pending = .store a v :: .load b :: rest →
    ∃ t u : State, step s = .next t ∧ step t = .next u ∧ t.pending = .load b :: rest ∧
      u.replies = s.replies ++ [.byte (if b = a then v else s.mem.read b)] ∧
      (∀ a', u.mem.read a' = if a' = a then v else s.mem.read a')

/-! ### The table generator (41_table_generator.md) -/

/-- R141 and R142, entry by entry, with their edge cases: what steps 1 and 2 do, when each is performed for a key byte, that
their order does not matter, and that the entry at position `k` never moves. -/
def Obligations.KeyByteStepsRotateTheTable : Prop :=
  ∀ F : Table,
    (∀ p q : Byte, (F.moveToFront p).entry q =
      if q = 0#8 then F.entry p else if q ≤ p then F.entry (q - 1#8) else F.entry q) ∧
    (∀ p q : Byte, (F.moveToBack p).entry q =
      if q = 255#8 then F.entry p else if p ≤ q then F.entry (q + 1#8) else F.entry q) ∧
    F.moveToFront 0#8 = F ∧ F.moveToBack 255#8 = F ∧
    F.rotateAround 0#8 = F.moveToBack 1#8 ∧ F.rotateAround 255#8 = F.moveToFront 254#8 ∧
    ∀ k : Byte, (F.rotateAround k).entry k = F.entry k ∧
      (0#8 < k → k < 255#8 →
        F.rotateAround k = (F.moveToFront (k - 1#8)).moveToBack (k + 1#8) ∧
        F.rotateAround k = (F.moveToBack (k + 1#8)).moveToFront (k - 1#8))

/-- R144 (e): the forward table of a single key byte from the identity, entry by entry (the worked scenario of R146 is
`k = 1`). -/
def Obligations.SingleKeyByteFromIdentity : Prop :=
  ∀ k q : Byte, (Table.ident.forward [k]).entry q =
    if q < k then (if q = 0#8 then k - 1#8 else q - 1#8)
    else if q = k then k
    else if q = 255#8 then k + 1#8 else q + 1#8

/-- R144 (d): if the Base Table is a permutation, so is the table after every key byte. -/
def Obligations.KeyBytesKeepPermutations : Prop :=
  ∀ (B : Table) (key : List Byte),
    (∀ v : Byte, B.toList.count v = 1) → ∀ v : Byte, (B.forward key).toList.count v = 1

/-- R143, R147: with a permutation as Base Table, the two tables `derive` gives are inverse to one another, both ways round. -/
def Obligations.DerivedTablesAreInverse : Prop :=
  ∀ (s : State) (sl : Slot) (F I : Table), s.base.isPerm = true → s.derive sl = (F, I) →
    I.isPerm = true ∧ ∀ i : Byte, I.entry (F.entry i) = i ∧ F.entry (I.entry i) = i

/-- R144 (c), R147: the same key bytes and the same Base Table give the same tables, wherever the key lies and whatever else
the states hold. -/
def Obligations.SameKeyAndBaseGiveSameTables : Prop :=
  ∀ (s t : State) (sl sl' : Slot), s.base.isPerm = true → t.base = s.base → sl'.keySize = sl.keySize →
    (∀ j < sl.keySize.toNat, t.keyByte sl' j = s.keyByte sl j) → t.derive sl' = s.derive sl

/-- R144 (a): with an empty key the tables are the Base Table and its inverse, for every Base Table that is a permutation. -/
def Obligations.EmptyKeyGivesBaseAndItsInverse : Prop :=
  ∀ (s : State) (sl : Slot), s.base.isPerm = true → sl.keySize = 0#32 →
    (s.derive sl).1 = s.base ∧ ∀ i : Byte, (s.derive sl).2.entry (s.base.entry i) = i

/-! ### The commands -/

/-- R232: an absent context gives `InvalidArgument` for every command that takes a context, and nothing but `STATUS`
changes. -/
def Obligations.AbsentContextIsInvalidArgument : Prop :=
  ∀ (i : Instr) (c : Nat) (s : State), ctxOf i = some c → s.nctx ≤ c →
    exec i s = .next (s.withStatus 2#4 false)

/-- R120: `INIT c`. An absent slot is reported; with a key declared and none bound it fails and destroys the slot; else, with a
permutation as `BASE` (R120 (f), R275), it completes: key bound, cursors zeroed, tables derived. -/
def Obligations.InitBindsTheKeyAndDerivesTables : Prop :=
  ∀ (c : Nat) (s : State),
    (s.nctx ≤ c → exec (.init c) s = .next (s.withStatus 2#4 false)) ∧
    (c < s.nctx → 0#32 < s.argKeySize ∧ s.argKeyPtr = nullPtr →
      ∃ t, exec (.init c) s = .next t ∧ t.readReg .status = 2#32 ∧ s.KeptButSlot c t ∧
        t.slot c = some { keyPtr := 0#32, keySize := 0#32, fwd := Table.zero, inv := Table.zero,
                          encCur := 0#32, decCur := 0#32 }) ∧
    (c < s.nctx → ¬(0#32 < s.argKeySize ∧ s.argKeyPtr = nullPtr) → s.base.isPerm = true →
      ∃ t F I, exec (.init c) s = .next t ∧ t.readReg .status = 0#32 ∧ s.KeptButSlot c t ∧
        F = s.base.forward (s.mem.bytesAt s.argKeyPtr s.argKeySize.toNat) ∧
        (∀ i : Byte, I.entry (F.entry i) = i) ∧
        t.slot c = some { keyPtr := s.argKeyPtr, keySize := s.argKeySize, fwd := F, inv := I,
                          encCur := 0#32, decCur := 0#32 })

/-- R121: `TEARDOWN c` puts a present slot in the destroyed state. -/
def Obligations.TeardownDestroysTheSlot : Prop :=
  ∀ (c : Nat) (s : State),
    (s.nctx ≤ c → exec (.teardown c) s = .next (s.withStatus 2#4 false)) ∧
    (c < s.nctx → ∃ t, exec (.teardown c) s = .next t ∧ t.readReg .status = 0#32 ∧ s.KeptButSlot c t ∧
      t.slot c = some { keyPtr := 0#32, keySize := 0#32, fwd := Table.zero, inv := Table.zero,
                        encCur := 0#32, decCur := 0#32 })

/-- R145: with a permutation as `BASE` (R145 (f), R275), `GEN c` regenerates both tables of a well-formed slot and keeps its
binding and its cursors; a malformed slot is left exactly as it was, whatever `BASE` is. -/
def Obligations.GenRegeneratesTheTables : Prop :=
  ∀ (c : Nat) (s : State),
    (s.nctx ≤ c → exec (.gen c) s = .next (s.withStatus 2#4 false)) ∧
    ∀ sl, s.slot c = some sl →
      (0#32 < sl.keySize ∧ sl.keyPtr = nullPtr → exec (.gen c) s = .next (s.withStatus 2#4 false)) ∧
      (¬(0#32 < sl.keySize ∧ sl.keyPtr = nullPtr) → s.base.isPerm = true →
        ∃ t F I, exec (.gen c) s = .next t ∧ t.readReg .status = 0#32 ∧ s.KeptButSlot c t ∧
          F = s.base.forward (s.mem.bytesAt sl.keyPtr sl.keySize.toNat) ∧
          (∀ i : Byte, I.entry (F.entry i) = i) ∧
          t.slot c = some { sl with fwd := F, inv := I })

/-- R162: `VALIDATE c` errs for an absent context or a malformed slot; else, with a permutation as `BASE` (R162 (e), R275), it
completes with `STATUS` 0x100 when both tables are what `derive` gives now and 0 when not, clears the scratch tables, and changes
nothing else. -/
def Obligations.ValidateReportsTheVerdict : Prop :=
  ∀ (c : Nat) (s : State),
    (s.nctx ≤ c → exec (.validate c) s = .next (s.withStatus 2#4 false)) ∧
    ∀ sl, s.slot c = some sl →
      (0#32 < sl.keySize ∧ sl.keyPtr = nullPtr → exec (.validate c) s = .next (s.withStatus 2#4 false)) ∧
      (¬(0#32 < sl.keySize ∧ sl.keyPtr = nullPtr) → s.base.isPerm = true →
        ∃ t, exec (.validate c) s = .next t ∧
          (sl.fwd = (s.derive sl).1 ∧ sl.inv = (s.derive sl).2 → t.readReg .status = 0x100#32) ∧
          (¬(sl.fwd = (s.derive sl).1 ∧ sl.inv = (s.derive sl).2) → t.readReg .status = 0#32) ∧
          t.sfwd = Table.zero ∧ t.sinv = Table.zero ∧
          t.base = s.base ∧ (∀ d, t.slot d = s.slot d) ∧ s.RegistersKept t ∧ s.MemoryKept t)

/-- R162 (a): with a permutation as Base Table, `VALIDATE c` right after a successful `INIT c` or `GEN c` finds the tables
valid. -/
def Obligations.ValidRightAfterInitOrGen : Prop :=
  ∀ (c : Nat) (s t : State), s.base.isPerm = true →
    (exec (.init c) s = .next t ∨ exec (.gen c) s = .next t) → t.statusErr = 0#4 →
      ∃ u, exec (.validate c) t = .next u ∧ u.readReg .status = 0x100#32

/-- R161: with a permutation as `BASE`, after any single byte of either table of a valid slot is changed through the window,
`VALIDATE c` finds the tables invalid, without an error. -/
def Obligations.OneCorruptedByteIsDetected : Prop :=
  ∀ (s : State) (sl : Slot) (v : Word), s.base.isPerm = true →
    s.slot s.winCtx.toNat = some sl → sl.malformed = false → s.tablesValid sl →
    s.winTaddr.extractLsb' 8 3 ≤ 1#3 → (s.readReg .winTdata).toNat ≠ v.toNat % 256 →
      ∃ u, exec (.validate s.winCtx.toNat) (s.writeReg .winTdata v) = .next u ∧ u.readReg .status = 0#32

/-- R200: `LDBASE` fails with `NotFound`, then with `IO`, leaving all but `STATUS` as it was; else it replaces all of `BASE`
with the 256 source bytes and touches no slot. -/
def Obligations.LdbaseReplacesTheBaseTable : Prop :=
  ∀ s : State,
    (s.argSrcPtr = nullPtr → exec .ldbase s = .next (s.withStatus 3#4 false)) ∧
    (s.argSrcPtr ≠ nullPtr → s.argSrcLen < 256#32 → exec .ldbase s = .next (s.withStatus 4#4 false)) ∧
    (s.argSrcPtr ≠ nullPtr → 256#32 ≤ s.argSrcLen →
      ∃ t, exec .ldbase s = .next t ∧ t.readReg .status = 0#32 ∧
        (∀ i : Byte, t.base.entry i = s.mem.read (s.argSrcPtr + i.setWidth 32)) ∧
        (∀ c, t.slot c = s.slot c) ∧ t.sfwd = s.sfwd ∧ t.sinv = s.sinv ∧ s.RegistersKept t ∧ s.MemoryKept t)

/-- R171, R231: the checks of `ENC c` and `DEC c` in their order, each with its outcome and nothing but `STATUS` changed (after
the validator ran, the scratch tables are clear). The check that runs the validator is stated for a permutation as `BASE` (R275),
and success after all checks where the spec promises the loop's result (`LoopPromised`). What the model does elsewhere is stated
as its choice in `TransformsRunOnWithoutAPermutation` and `TransformsWriteBufferAndOneCursor`. -/
def Obligations.TransformChecksInOrder : Prop :=
  ∀ (i : Instr) (c : Nat) (s : State), (i = .enc c ∨ i = .dec c) →
    (s.nctx ≤ c → exec i s = .next (s.withStatus 2#4 false)) ∧
    ∀ sl, s.slot c = some sl →
      (s.argBufPtr = nullPtr → exec i s = .next (s.withStatus 1#4 false)) ∧
      (s.argBufPtr ≠ nullPtr → 0#32 < sl.keySize → sl.keyPtr = nullPtr → exec i s = .next (s.withStatus 2#4 false)) ∧
      (s.argBufPtr ≠ nullPtr → ¬(0#32 < sl.keySize ∧ sl.keyPtr = nullPtr) →
        (sl.keySize = 0#32 ∨ s.argBufSize = 0#32 → exec i s = .next (s.withStatus 0#4 false)) ∧
        (0#32 < sl.keySize → 0#32 < s.argBufSize → s.base.isPerm = true → ¬ s.tablesValid sl →
          exec i s = .next ({ s with sfwd := Table.zero, sinv := Table.zero }.withStatus 2#4 false)) ∧
        (0#32 < sl.keySize → 0#32 < s.argBufSize → s.tablesValid sl → s.LoopPromised sl (s.startCursor i sl) →
          ∃ t, exec i s = .next t ∧ t.readReg .status = 0#32))

/-- R172: with an empty key or an empty buffer, `ENC c` and `DEC c` succeed and change nothing but `STATUS`: no buffer byte, no
cursor, no table, whether the tables are valid or not. -/
def Obligations.EmptyKeyOrBufferIsANoOp : Prop :=
  ∀ (i : Instr) (c : Nat) (s : State) (sl : Slot), (i = .enc c ∨ i = .dec c) → s.slot c = some sl →
    s.argBufPtr ≠ nullPtr → sl.malformed = false → (sl.keySize = 0#32 ∨ s.argBufSize = 0#32) →
      exec i s = .next { s with statusErr := 0#4, statusResult := false, freeSeq := s.freeSeq + 1 }

/-- R173, R176: `DEC c` where the spec promises its result (`LoopPromised`: a permutation as `BASE` among its conditions). -/
def Obligations.DecDecryptsTheBuffer : Prop :=
  ∀ (c : Nat) (s : State) (sl : Slot), s.mem.wf → s.LoopReached c sl → s.LoopPromised sl sl.decCur →
    ∃ (t : State) (cur : Word), exec (.dec c) s = .next t ∧ t.readReg .status = 0#32 ∧
      (∀ n < s.argBufSize.toNat, t.mem.read (elemAddr s.argBufPtr n) =
        sl.inv.entry (s.bufByte n) ^^^ s.keyByte sl ((sl.decCur.toNat + n) % sl.keySize.toNat)) ∧
      s.MemoryKeptOutsideBuffer t ∧
      cur.toNat = (sl.decCur.toNat + s.argBufSize.toNat) % sl.keySize.toNat ∧
      t.slot c = some { sl with decCur := cur } ∧
      s.OtherSlotsKept c t ∧ s.RegistersKept t ∧ t.base = s.base ∧ t.sfwd = Table.zero ∧ t.sinv = Table.zero

/-- R174, R176: the corrected `ENC c` where the spec promises its result (`LoopPromised`). -/
def Obligations.EncEncryptsTheBuffer : Prop :=
  ∀ (c : Nat) (s : State) (sl : Slot), s.mem.wf → s.modeLit = false → s.LoopReached c sl → s.LoopPromised sl sl.encCur →
    ∃ (t : State) (cur : Word), exec (.enc c) s = .next t ∧ t.readReg .status = 0#32 ∧
      (∀ n < s.argBufSize.toNat, t.mem.read (elemAddr s.argBufPtr n) =
        sl.fwd.entry (s.bufByte n ^^^ s.keyByte sl ((sl.encCur.toNat + n) % sl.keySize.toNat))) ∧
      s.MemoryKeptOutsideBuffer t ∧
      cur.toNat = (sl.encCur.toNat + s.argBufSize.toNat) % sl.keySize.toNat ∧
      t.slot c = some { sl with encCur := cur } ∧
      s.OtherSlotsKept c t ∧ s.RegistersKept t ∧ t.base = s.base ∧ t.sfwd = Table.zero ∧ t.sinv = Table.zero

/-- R175, R176: the literal `ENC c` where the spec promises its result (`LoopPromised`): it substitutes through `INV`, starts
from the cursor the open parameter names (log entry 1), and writes `dec_cur`. -/
def Obligations.LiteralEncUsesInvAndWritesDecCur : Prop :=
  ∀ (c : Nat) (s : State) (sl : Slot) (cur₀ : Word), s.mem.wf → s.modeLit = true → s.LoopReached c sl →
    cur₀ = (if s.litEncCursorSrc = .enc then sl.encCur else sl.decCur) → s.LoopPromised sl cur₀ →
    ∃ (t : State) (cur : Word), exec (.enc c) s = .next t ∧ t.readReg .status = 0#32 ∧
      (∀ n < s.argBufSize.toNat, t.mem.read (elemAddr s.argBufPtr n) =
        sl.inv.entry (s.bufByte n ^^^ s.keyByte sl ((cur₀.toNat + n) % sl.keySize.toNat))) ∧
      s.MemoryKeptOutsideBuffer t ∧
      cur.toNat = (cur₀.toNat + s.argBufSize.toNat) % sl.keySize.toNat ∧
      t.slot c = some { sl with decCur := cur } ∧
      s.OtherSlotsKept c t ∧ s.RegistersKept t ∧ t.base = s.base ∧ t.sfwd = Table.zero ∧ t.sinv = Table.zero

/-- R61, R40: whenever `ENC c` or `DEC c` reaches its loop it completes, and writes buffer bytes and one cursor of slot `c` only,
even where the spec promises nothing (93_implementation_defined.md): a `BASE` that is no permutation (U1), a cursor outside the
key (U3), a buffer over the key (U4). In those three cases it is the model's choice: log entries 3, 4 and 5. -/
def Obligations.TransformsWriteBufferAndOneCursor : Prop :=
  ∀ (i : Instr) (c : Nat) (s : State) (sl : Slot), (i = .enc c ∨ i = .dec c) → s.mem.wf → s.LoopReached c sl →
    ∃ (t : State) (cur : Word), exec i s = .next t ∧ t.readReg .status = 0#32 ∧
      t.slot c = some (if i = .enc c ∧ s.modeLit = false then { sl with encCur := cur } else { sl with decCur := cur }) ∧
      s.MemoryKeptOutsideBuffer t ∧
      s.OtherSlotsKept c t ∧ s.RegistersKept t ∧ t.base = s.base ∧ t.sfwd = Table.zero ∧ t.sinv = Table.zero

/-! ### With a `BASE` that is no permutation: the model's choice (log entry 3) -/

/-- THE MODEL'S CHOICE, log entry 3: the spec promises nothing about `INIT`, `GEN` and `VALIDATE` when `BASE` is no permutation
(93_implementation_defined.md U1). Here they complete with the effects they have otherwise. The forward table is what the steps
of R141 and R142 give; nothing is said about the inverse table. -/
def Obligations.TableCommandsRunOnWithoutAPermutation : Prop :=
  ∀ (c : Nat) (s : State) (sl : Slot), s.base.isPerm = false → s.slot c = some sl →
    (¬(0#32 < s.argKeySize ∧ s.argKeyPtr = nullPtr) →
      ∃ t I, exec (.init c) s = .next t ∧ t.readReg .status = 0#32 ∧ s.KeptButSlot c t ∧
        t.slot c = some { keyPtr := s.argKeyPtr, keySize := s.argKeySize,
                          fwd := s.base.forward (s.mem.bytesAt s.argKeyPtr s.argKeySize.toNat), inv := I,
                          encCur := 0#32, decCur := 0#32 }) ∧
    (¬(0#32 < sl.keySize ∧ sl.keyPtr = nullPtr) →
      (∃ t I, exec (.gen c) s = .next t ∧ t.readReg .status = 0#32 ∧ s.KeptButSlot c t ∧
        t.slot c = some { sl with fwd := s.base.forward (s.mem.bytesAt sl.keyPtr sl.keySize.toNat), inv := I }) ∧
      ∃ t, exec (.validate c) s = .next t ∧ (s.tablesValid sl → t.readReg .status = 0x100#32) ∧
        (¬ s.tablesValid sl → t.readReg .status = 0#32) ∧ t.sfwd = Table.zero ∧ t.sinv = Table.zero ∧
        t.base = s.base ∧ (∀ d, t.slot d = s.slot d) ∧ s.RegistersKept t ∧ s.MemoryKept t)

/-- THE MODEL'S CHOICE, log entry 3: the spec promises nothing about an `ENC` or `DEC` that reaches the validator when `BASE` is no
permutation (93_implementation_defined.md U1). Here the tables are found valid or not against the free inverse table; not valid,
it is an `InvalidArgument`; valid, every buffer byte is combined as otherwise, with the cursor inside the key and buffer and key
apart. -/
def Obligations.TransformsRunOnWithoutAPermutation : Prop :=
  ∀ (i : Instr) (c : Nat) (s : State) (sl : Slot), (i = .enc c ∨ i = .dec c) → s.mem.wf → s.base.isPerm = false →
    s.slot c = some sl → s.argBufPtr ≠ nullPtr → sl.keyPtr ≠ nullPtr → 0#32 < sl.keySize → 0#32 < s.argBufSize →
    (¬ s.tablesValid sl →
      exec i s = .next ({ s with sfwd := Table.zero, sinv := Table.zero }.withStatus 2#4 false)) ∧
    (s.tablesValid sl → s.startCursor i sl < sl.keySize →
      (∀ n < s.argBufSize.toNat, ∀ j < sl.keySize.toNat, elemAddr s.argBufPtr n ≠ elemAddr sl.keyPtr j) →
      ∃ t, exec i s = .next t ∧ t.readReg .status = 0#32 ∧ s.MemoryKeptOutsideBuffer t ∧
        ∀ n < s.argBufSize.toNat, ∀ k,
          k = s.keyByte sl (((s.startCursor i sl).toNat + n) % sl.keySize.toNat) →
          t.mem.read (elemAddr s.argBufPtr n) =
            if i = .dec c then sl.inv.entry (s.bufByte n) ^^^ k
            else if s.modeLit = false then sl.fwd.entry (s.bufByte n ^^^ k)
            else sl.inv.entry (s.bufByte n ^^^ k))

/-! ### Laws of the transforms (43_transform.md) -/

/-- R177: round trip of the corrected variant. With a permutation as Base Table, valid tables, equal cursors, and the hazards
respected, `ENC c` then `DEC c`, and `DEC c` then `ENC c`, on the same buffer restore every byte of memory and leave the two
cursors equal. The two cursors are equal after a successful `INIT c`. -/
def Obligations.EncryptionAndDecryptionUndoEachOther : Prop :=
  (∀ (i j : Instr) (c : Nat) (s : State) (sl : Slot),
    (i = .enc c ∧ j = .dec c ∨ i = .dec c ∧ j = .enc c) →
    s.mem.wf → s.base.isPerm = true → s.modeLit = false → s.slot c = some sl → s.argBufPtr ≠ nullPtr →
    sl.malformed = false → s.tablesValid sl → sl.encCur = sl.decCur →
    (0#32 < sl.keySize → 0#32 < s.argBufSize → s.LoopPromised sl sl.encCur) →
    ∃ (t u : State) (sl' : Slot), exec i s = .next t ∧ exec j t = .next u ∧
      t.readReg .status = 0#32 ∧ u.readReg .status = 0#32 ∧ s.MemoryKept u ∧
      u.slot c = some sl' ∧ sl'.encCur = sl'.decCur ∧ sl'.fwd = sl.fwd ∧ sl'.inv = sl.inv ∧
      sl'.keyPtr = sl.keyPtr ∧ sl'.keySize = sl.keySize) ∧
  ∀ (c : Nat) (s t : State), exec (.init c) s = .next t → t.statusErr = 0#4 →
    ∃ sl, t.slot c = some sl ∧ sl.encCur = sl.decCur

/-- R178: streaming in the corrected variant. A buffer of `n₁ + n₂` bytes transformed in one call, and the same bytes transformed
as a chunk of `n₁` bytes and then, with the operand registers moved on, a chunk of `n₂` bytes, leave the same memory and the
same slot. The second chunk's pointer must not be the null pointer. -/
def Obligations.ChunkedTransformEqualsOneTransform : Prop :=
  ∀ (i : Instr) (c : Nat) (s : State) (sl : Slot) (n₁ n₂ : Word),
    (i = .enc c ∨ i = .dec c) → s.mem.wf → s.base.isPerm = true → s.modeLit = false →
    n₁.toNat + n₂.toNat < 2 ^ 32 → s.argBufSize = n₁ + n₂ → s.argBufPtr + n₁ ≠ nullPtr → s.LoopReached c sl →
    s.LoopPromised sl (if i = .enc c then sl.encCur else sl.decCur) →
    ∃ one t two : State, exec i s = .next one ∧ exec i { s with argBufSize := n₁ } = .next t ∧
      exec i { t with argBufPtr := s.argBufPtr + n₁, argBufSize := n₂ } = .next two ∧
      two.readReg .status = 0#32 ∧ (∀ a, two.mem.read a = one.mem.read a) ∧ two.slot c = one.slot c

/-- R176, invariant I3 of R23: if in every slot with a key the cursors are inside the key, they are so after every command. With a `BASE`
that is no permutation (U1) and with a buffer over the key (U4) it rests on log entries 3 and 5. -/
def Obligations.CommandsKeepCursorsInsideTheKey : Prop :=
  ∀ (i : Instr) (s t : State), (∀ c sl, s.slot c = some sl → sl.cursorsInKey) → exec i s = .next t →
    ∀ c sl, t.slot c = some sl → sl.cursorsInKey

/-! ### Rules about the whole machine. Where the spec promises nothing (U1, U3, U4) they rest on log entries 3, 4 and 5. -/

/-- R39: no command's behaviour depends on `STATUS`. -/
def Obligations.CommandsIgnoreStatus : Prop :=
  ∀ (i : Instr) (s : State) (err : BitVec 4) (result : Bool),
    exec i { s with statusErr := err, statusResult := result } = exec i s

/-- R31, R26: no command reads or writes the window registers. -/
def Obligations.CommandsIgnoreTheWindow : Prop :=
  ∀ (i : Instr) (s t : State) (wc : BitVec 4) (wa : BitVec 11), exec i s = .next t →
    t.winCtx = s.winCtx ∧ t.winTaddr = s.winTaddr ∧
    exec i { s with winCtx := wc, winTaddr := wa } = .next { t with winCtx := wc, winTaddr := wa }

/-- R30: only `ENC` reads `MODE`, and no command writes it. -/
def Obligations.OnlyEncReadsMode : Prop :=
  ∀ (i : Instr) (s t : State) (lit : Bool), exec i s = .next t →
    t.modeLit = s.modeLit ∧
    ((∀ c, i ≠ .enc c) → exec i { s with modeLit := lit } = .next { t with modeLit := lit })

/-- R123: slots are independent. A command writes no slot but its own, and what a slot other than its own holds makes no
difference to anything else it does. -/
def Obligations.SlotsAreIndependent : Prop :=
  ∀ (i : Instr) (s t : State) (d : Nat) (sl : Slot), ctxOf i ≠ some d → exec i s = .next t →
    t.slot d = s.slot d ∧ exec i (s.setSlot d sl) = .next (t.setSlot d sl)

/-- R236: a command that ends with an error changes nothing but `STATUS`, but for a failed `INIT c` on a present slot, which
leaves slot `c` destroyed. (The model's own counter of completed commands moves on, log entry 3.) -/
def Obligations.FailedCommandsChangeOnlyStatus : Prop :=
  ∀ (i : Instr) (s t : State), s.sfwd = Table.zero → s.sinv = Table.zero → exec i s = .next t → t.statusErr ≠ 0#4 →
    t = s.withStatus t.statusErr false ∨
    ∃ c, i = .init c ∧ c < s.nctx ∧ t = { s with ctx := s.ctx.set c Slot.destroyed }.withStatus 2#4 false

/-- R40, R21: `BASE` is changed by reset and by a successful `LDBASE` only. -/
def Obligations.BaseTableWriters : Prop :=
  ∀ s t : State, step s = .next t → t.base ≠ s.base →
    s.pending.head? = some .reset ∨
    (s.pending.head? = some (.write 0#6 0x00000006#32) ∧ s.argSrcPtr ≠ nullPtr ∧ 256#32 ≤ s.argSrcLen ∧
      t.statusErr = 0#4)

/-- R40: the key binding of slot `c` is changed by reset, `INIT c`, `TEARDOWN c`, and a window write with `WIN_CTX = c` only. -/
def Obligations.KeyBindingWriters : Prop :=
  ∀ (s t : State) (c : Nat), step s = .next t →
    ((t.slot c).map Slot.keyPtr ≠ (s.slot c).map Slot.keyPtr →
      s.pending.head? = some .reset ∨
      (∃ w, s.pending.head? = some (.write 0#6 w) ∧ (decode w = .ok (.init c) ∨ decode w = .ok (.teardown c))) ∨
      (∃ v, s.pending.head? = some (.write 10#6 v) ∧ s.winCtx.toNat = c)) ∧
    ((t.slot c).map Slot.keySize ≠ (s.slot c).map Slot.keySize →
      s.pending.head? = some .reset ∨
      (∃ w, s.pending.head? = some (.write 0#6 w) ∧ (decode w = .ok (.init c) ∨ decode w = .ok (.teardown c))) ∨
      (∃ v, s.pending.head? = some (.write 11#6 v) ∧ s.winCtx.toNat = c))

/-- R40: the tables of slot `c` are changed by reset, `INIT c`, a successful `GEN c`, `TEARDOWN c`, and a window write with
`WIN_CTX = c` and the table's select only. -/
def Obligations.SlotTableWriters : Prop :=
  ∀ (s t : State) (c : Nat), step s = .next t →
    (∀ (get : Slot → Table) (sel : BitVec 3), (get = Slot.fwd ∧ sel = 0#3 ∨ get = Slot.inv ∧ sel = 1#3) →
      (t.slot c).map get ≠ (s.slot c).map get →
        s.pending.head? = some .reset ∨
        (∃ w, s.pending.head? = some (.write 0#6 w) ∧ (decode w = .ok (.init c) ∨ decode w = .ok (.teardown c) ∨
          (decode w = .ok (.gen c) ∧ t.statusErr = 0#4))) ∨
        (∃ v, s.pending.head? = some (.write 15#6 v) ∧ s.winCtx.toNat = c ∧ s.winTaddr.extractLsb' 8 3 = sel))

/-- R40: the cursors of slot `c` are changed by reset, `INIT c`, `TEARDOWN c`, and a successful transform that processed at least
one byte (with a key and a buffer that are not empty, R172) only: `enc_cur` by the corrected `ENC c`, `dec_cur` by `DEC c` and
the literal `ENC c`. -/
def Obligations.CursorWriters : Prop :=
  ∀ (s t : State) (c : Nat), step s = .next t →
    ((t.slot c).map Slot.encCur ≠ (s.slot c).map Slot.encCur →
      s.pending.head? = some .reset ∨
      ∃ w, s.pending.head? = some (.write 0#6 w) ∧ (decode w = .ok (.init c) ∨ decode w = .ok (.teardown c) ∨
        (decode w = .ok (.enc c) ∧ s.modeLit = false ∧ t.statusErr = 0#4 ∧ 0#32 < s.argBufSize ∧
          ∃ sl, s.slot c = some sl ∧ 0#32 < sl.keySize))) ∧
    ((t.slot c).map Slot.decCur ≠ (s.slot c).map Slot.decCur →
      s.pending.head? = some .reset ∨
      ∃ w, s.pending.head? = some (.write 0#6 w) ∧ (decode w = .ok (.init c) ∨ decode w = .ok (.teardown c) ∨
        ((decode w = .ok (.dec c) ∨ decode w = .ok (.enc c) ∧ s.modeLit = true) ∧ t.statusErr = 0#4 ∧
          0#32 < s.argBufSize ∧ ∃ sl, s.slot c = some sl ∧ 0#32 < sl.keySize)))

/-- R40, R29: `STATUS` is changed by reset and by a `CMD` write only; `MODE`, the operand registers and the window registers by
reset and by a host write of that register only. -/
def Obligations.HostRegisterWriters : Prop :=
  ∀ s t : State, step s = .next t →
    (t.readReg .status ≠ s.readReg .status →
      s.pending.head? = some .reset ∨ ∃ v, s.pending.head? = some (.write 0#6 v)) ∧
    ∀ r ∈ [Reg.mode, .argKeyPtr, .argKeySize, .argBufPtr, .argBufSize, .argSrcPtr, .argSrcLen, .winCtx, .winTaddr],
      t.readReg r ≠ s.readReg r →
        s.pending.head? = some .reset ∨ ∃ v, s.pending.head? = some (.write r.index v)

/-- R40, R61: a byte of memory is changed by a host store to it, and by a successful `ENC` or `DEC` whose buffer holds it,
only. -/
def Obligations.MemoryWriters : Prop :=
  ∀ (s t : State) (a : Word), s.mem.wf → step s = .next t → t.mem.read a ≠ s.mem.read a →
    (∃ v, s.pending.head? = some (.store a v)) ∨
    ∃ w c, s.pending.head? = some (.write 0#6 w) ∧ (decode w = .ok (.enc c) ∨ decode w = .ok (.dec c)) ∧
      t.statusErr = 0#4 ∧ ∃ n < s.argBufSize.toNat, a = elemAddr s.argBufPtr n

/-- R38, R260: reset puts every piece of the block's state at its reset value and does not change system memory. -/
def Obligations.ResetGivesTheResetValues : Prop :=
  ∀ (s : State) (rest : List HostOp), s.pending = .reset :: rest →
    ∃ t, step s = .next t ∧ (∀ i : Byte, t.base.entry i = i) ∧ t.nctx = s.nctx ∧
      (∀ c < s.nctx, t.slot c = some { keyPtr := 0#32, keySize := 0#32, fwd := Table.zero, inv := Table.zero,
                                       encCur := 0#32, decCur := 0#32 }) ∧
      (∀ i : Byte, t.sfwd.entry i = 0#8 ∧ t.sinv.entry i = 0#8) ∧
      t.statusErr = 0#4 ∧ t.statusResult = false ∧ t.modeLit = false ∧
      t.argKeyPtr = 0#32 ∧ t.argKeySize = 0#32 ∧ t.argBufPtr = 0#32 ∧ t.argBufSize = 0#32 ∧
      t.argSrcPtr = 0#32 ∧ t.argSrcLen = 0#32 ∧ t.winCtx = 0#4 ∧ t.winTaddr = 0#11 ∧
      s.MemoryKept t ∧ t.litEncCursorSrc = s.litEncCursorSrc ∧ t.pending = rest ∧ t.replies = s.replies

/-- The invariant holds right after reset, for every legal value of the open parameters. The parameters of `State.reset` and
its empty memory are the model's choice (log entries 1 and 2). -/
def Obligations.InvariantHoldsAfterReset : Prop :=
  State.reset.Inv ∧ ∀ p : Params, p.legal → (State.resetWith p).Inv

/-- Every step keeps the invariant: memory stays canonical, the slots stay `P_NCTX` in number, the scratch tables stay clear
(R25), `ERR` stays a code of R230, and `RESULT` is 1 only with `ERR = 0` (R29). -/
def Obligations.EveryStepKeepsTheInvariant : Prop :=
  ∀ s t : State, s.Inv → step s = .next t → t.Inv

/-- Nothing stops the machine (R66, R97, R237; log entry 13): every step, from every state, answers a next state. -/
def Obligations.EveryStepAnswersANextState : Prop := ∀ s : State, s.goesOn
end

