-- ==== Sys2Proof/Laws/Decode.lean ====
section
/-! SUPPORT. The decoder row by row, and the host register indices (30_encoding.md R93; 10_state.md R26). -/

namespace Sys2Proof

/-- The decoder written out: the rows of R92 tried one after another. -/
theorem decode_eq_rows (w : Word) :
    decode w =
      if w &&& 0xFFFFF0FF#32 = 1#32 then .ok (.init (ctxField w))
      else if w &&& 0xFFFFF0FF#32 = 2#32 then .ok (.gen (ctxField w))
      else if w &&& 0xFFFFF0FF#32 = 3#32 then .ok (.validate (ctxField w))
      else if w &&& 0xFFFFF0FF#32 = 4#32 then .ok (.enc (ctxField w))
      else if w &&& 0xFFFFF0FF#32 = 5#32 then .ok (.dec (ctxField w))
      else if w &&& 0xFFFFFFFF#32 = 6#32 then .ok .ldbase
      else if w &&& 0xFFFFF0FF#32 = 7#32 then .ok (.teardown (ctxField w))
      else .error (rejectReason w) := by
  simp only [decode, opcodeTable, List.find?_cons, List.find?_nil, OpcodeRow.matchesWord]
  repeat' split
  all_goals simp_all
  all_goals subst_vars; rfl

/-- The bits of a word put together from three fields. -/
theorem getLsbD_fields (r : BitVec 20) (k : BitVec 4) (o : BitVec 8) (n : Nat) :
    BitVec.getLsbD (w := 32) (r ++ k ++ o) n =
      if n < 8 then o.getLsbD n else if n < 12 then k.getLsbD (n - 8) else r.getLsbD (n - 12) := by
  refine (BitVec.getLsbD_append (x := r ++ k) (y := o)).trans ?_
  have h24 : (r ++ k).getLsbD (n - 8) = if n - 8 < 4 then k.getLsbD (n - 8) else r.getLsbD (n - 8 - 4) :=
    BitVec.getLsbD_append
  rw [h24]
  by_cases h : n < 8
  · simp [h]
  · by_cases h' : n < 12
    · simp [h, h', show n - 8 < 4 by omega]
    · simp [h, h', show ¬ n - 8 < 4 by omega, show n - 8 - 4 = n - 12 by omega]

/-- A word is its three fields (R91). -/
theorem word_fields (w : Word) : w = reservedField w ++ w.extractLsb' 8 4 ++ opField w := by
  refine BitVec.eq_of_getLsbD_eq fun n hn => ?_
  rw [getLsbD_fields, opField, reservedField, BitVec.getLsbD_extractLsb', BitVec.getLsbD_extractLsb',
    BitVec.getLsbD_extractLsb']
  by_cases h : n < 8
  · simp [h]
  · by_cases h' : n < 12
    · simp [h, h', show n - 8 < 4 by omega, show 8 + (n - 8) = n by omega]
    · simp [h, h', show n - 12 < 20 by omega, show 12 + (n - 12) = n by omega]

theorem opField_append (r : BitVec 20) (k : BitVec 4) (o : BitVec 8) : opField (r ++ k ++ o) = o := by
  refine BitVec.eq_of_getLsbD_eq fun n hn => ?_
  rw [opField, BitVec.getLsbD_extractLsb', getLsbD_fields]
  simp [hn]

theorem ctxBits_append (r : BitVec 20) (k : BitVec 4) (o : BitVec 8) :
    BitVec.extractLsb' (n := 32) 8 4 (r ++ k ++ o) = k := by
  refine BitVec.eq_of_getLsbD_eq fun n hn => ?_
  rw [BitVec.getLsbD_extractLsb', getLsbD_fields]
  simp [hn, show 8 + n < 12 by omega]

theorem reservedField_append (r : BitVec 20) (k : BitVec 4) (o : BitVec 8) : reservedField (r ++ k ++ o) = r := by
  refine BitVec.eq_of_getLsbD_eq fun n hn => ?_
  rw [reservedField, BitVec.getLsbD_extractLsb', getLsbD_fields]
  simp [hn, show ¬ 12 + n < 8 by omega]

/-- Two words are equal exactly when their three fields are. -/
theorem word_eq_iff (w v : Word) :
    w = v ↔ reservedField w = reservedField v ∧ w.extractLsb' 8 4 = v.extractLsb' 8 4 ∧ opField w = opField v := by
  refine ⟨fun h => h ▸ ⟨rfl, rfl, rfl⟩, fun ⟨hr, hk, ho⟩ => ?_⟩
  rw [word_fields w, word_fields v, hr, hk, ho]

/-- The mask of the rows that use `CTX` clears the `CTX` field (R92). -/
theorem word_masked (w : Word) : w &&& 0xFFFFF0FF#32 = reservedField w ++ 0#4 ++ opField w := by
  refine BitVec.eq_of_getLsbD_eq fun n hn => ?_
  have hm : ∀ n < 32, BitVec.getLsbD 0xFFFFF0FF#32 n = decide (n < 8 ∨ 12 ≤ n) := by decide
  rw [BitVec.getLsbD_and, hm n hn, getLsbD_fields, opField, reservedField, BitVec.getLsbD_extractLsb',
    BitVec.getLsbD_extractLsb']
  by_cases h : n < 8
  · simp [h]
  · by_cases h' : n < 12
    · simp [h, h', show ¬ 12 ≤ n by omega]
    · simp [h, h', show 12 ≤ n by omega, show n - 12 < 20 by omega, show 12 + (n - 12) = n by omega]

/-- A row that uses `CTX` matches exactly the words with its opcode and zeros in the reserved bits (R91, R92). -/
theorem masked_eq_iff (w : Word) (op : BitVec 8) :
    w &&& 0xFFFFF0FF#32 = op.setWidth 32 ↔ reservedField w = 0#20 ∧ opField w = op := by
  have hop : op.setWidth 32 = 0#20 ++ 0#4 ++ op := by
    refine BitVec.eq_of_getLsbD_eq fun n hn => ?_
    rw [BitVec.getLsbD_setWidth, getLsbD_fields]
    by_cases h : n < 8
    · simp [h, hn]
    · simp [h, BitVec.getLsbD_of_ge op n (by omega)]
  rw [word_masked, hop, word_eq_iff]
  simp only [reservedField_append, ctxBits_append, opField_append, true_and]

/-- The decoder by its fields (R91, R95). -/
theorem decode_eq_fields (w : Word) :
    decode w =
      if reservedField w ≠ 0#20 then .error .reservedBits
      else if opField w = 1#8 then .ok (.init (ctxField w))
      else if opField w = 2#8 then .ok (.gen (ctxField w))
      else if opField w = 3#8 then .ok (.validate (ctxField w))
      else if opField w = 4#8 then .ok (.enc (ctxField w))
      else if opField w = 5#8 then .ok (.dec (ctxField w))
      else if opField w = 6#8 then (if ctxField w = 0 then .ok .ldbase else .error .ldbaseContext)
      else if opField w = 7#8 then .ok (.teardown (ctxField w))
      else .error .unknownOpcode := by
  have h6 : w &&& 0xFFFFFFFF#32 = 6#32 ↔ reservedField w = 0#20 ∧ ctxField w = 0 ∧ opField w = 6#8 := by
    rw [show w &&& 0xFFFFFFFF#32 = w from BitVec.and_allOnes, word_eq_iff, ctxField]
    have : (w.extractLsb' 8 4).toNat = 0 ↔ w.extractLsb' 8 4 = 0#4 := by
      rw [← BitVec.toNat_inj]; rfl
    rw [this]
    exact Iff.rfl
  have e := masked_eq_iff w
  have e1 := e 1#8; have e2 := e 2#8; have e3 := e 3#8; have e4 := e 4#8; have e5 := e 5#8; have e7 := e 7#8
  simp only [show (1#8).setWidth 32 = 1#32 from rfl, show (2#8).setWidth 32 = 2#32 from rfl,
    show (3#8).setWidth 32 = 3#32 from rfl, show (4#8).setWidth 32 = 4#32 from rfl,
    show (5#8).setWidth 32 = 5#32 from rfl, show (7#8).setWidth 32 = 7#32 from rfl] at e1 e2 e3 e4 e5 e7
  rw [decode_eq_rows]
  simp only [e1, e2, e3, e4, e5, e7, h6]
  by_cases hr : reservedField w = 0#20
  · by_cases h0 : ctxField w = 0
    · simp only [hr, h0, true_and, ne_eq, not_true, if_false, if_true]
      repeat' split
      all_goals first | rfl | simp_all [rejectReason]
    · simp only [hr, h0, true_and, false_and, ne_eq, not_true, if_false]
      repeat' split
      all_goals first | rfl | simp_all [rejectReason]
  · simp [hr, rejectReason]

/-- The fields of a command word (R91, R99). -/
theorem reservedField_commandWord (op : BitVec 8) (c : Nat) : reservedField (commandWord op c) = 0#20 :=
  reservedField_append _ _ _

theorem opField_commandWord (op : BitVec 8) (c : Nat) : opField (commandWord op c) = op := opField_append _ _ _

theorem ctxField_commandWord (op : BitVec 8) {c : Nat} (h : c < 16) : ctxField (commandWord op c) = c := by
  rw [ctxField, commandWord, ctxBits_append, BitVec.toNat_ofNat]
  exact Nat.mod_eq_of_lt h

/-- The slot number of a command word fits the `CTX` field (R91). -/
theorem ctxField_lt (w : Word) : ctxField w < 16 := (w.extractLsb' 8 4).isLt

/-- An index is the index of exactly one register, or one of 18 to 63 (R26, R36). -/
theorem Reg.index_ofIndex : ∀ i : RegIndex, (Reg.ofIndex i = .unimplemented ∧ 18#6 ≤ i) ∨ (Reg.ofIndex i).index = i := by
  decide

theorem Reg.ofIndex_index (r : Reg) : Reg.ofIndex r.index = r := by cases r <;> rfl

theorem Reg.ofIndex_eq_cmd : ∀ i : RegIndex, Reg.ofIndex i = .cmd ↔ i = 0#6 := by decide

end Sys2Proof
end

