-- ==== Sys2Proof/Laws/Memory.lean ====
section
/-! SUPPORT. What reading and writing memory do, and that writing keeps the canonical form (20_memory.md R66). -/

namespace Sys2Proof.Machine

theorem Memory.wf_nil : Memory.wf [] := by simp [Memory.wf]

theorem Memory.wf_cons {k : Nat} {x : Byte} {m : Memory} :
    Memory.wf ((k, x) :: m) ↔
      (∀ cell ∈ m, k < cell.1) ∧ k < 2 ^ 32 ∧ x ≠ Config.unlistedByte ∧ Memory.wf m := by
  simp only [Memory.wf, List.pairwise_cons, List.forall_mem_cons]
  tauto

/-- An address below every listed one reads as the unlisted byte. -/
theorem Memory.read_below (m : Memory) (a : Word) (h : ∀ cell ∈ m, a.toNat < cell.1) :
    m.read a = Config.unlistedByte := by
  induction m with
  | nil => rfl
  | cons c m ih =>
    have hc := h c (List.mem_cons_self ..)
    rw [Memory.read, if_neg (by omega)]
    exact ih fun cell hm => h cell (List.mem_cons_of_mem _ hm)

/-- The listed addresses after a write are among the old ones and the written one. -/
theorem Memory.mem_write {m : Memory} {a : Word} {v : Byte} {cell : Host.Cell} (h : cell ∈ m.write a v) :
    cell ∈ m ∨ cell = (a.toNat, v) ∧ v ≠ Config.unlistedByte := by
  induction m with
  | nil =>
    simp only [Memory.write, Memory.listCell] at h
    split at h <;> simp_all
  | cons c m ih =>
    obtain ⟨k, x⟩ := c
    simp only [Memory.write, Memory.listCell] at h
    split at h
    · rcases List.mem_cons.1 h with h | h
      · exact .inl (h ▸ List.mem_cons_self ..)
      · rcases ih h with h | h
        · exact .inl (List.mem_cons_of_mem _ h)
        · exact .inr h
    · split at h <;> split at h
      · exact .inl (List.mem_cons_of_mem _ h)
      · rcases List.mem_cons.1 h with h | h
        · exact .inr ⟨h, by assumption⟩
        · exact .inl (List.mem_cons_of_mem _ h)
      · exact .inl h
      · rcases List.mem_cons.1 h with h | h
        · exact .inr ⟨h, by assumption⟩
        · exact .inl h

/-- A write keeps the canonical form. -/
theorem Memory.wf_write {m : Memory} (h : m.wf) (a : Word) (v : Byte) : (m.write a v).wf := by
  have ha : a.toNat < 2 ^ 32 := a.isLt
  induction m with
  | nil =>
    simp only [Memory.write, Memory.listCell]
    split
    · exact Memory.wf_nil
    · exact Memory.wf_cons.2 ⟨by simp, ha, by assumption, Memory.wf_nil⟩
  | cons c m ih =>
    obtain ⟨k, x⟩ := c
    obtain ⟨hk, hlt, hx, hm⟩ := Memory.wf_cons.1 h
    simp only [Memory.write, Memory.listCell]
    split
    · refine Memory.wf_cons.2 ⟨fun cell hc => ?_, hlt, hx, ih hm⟩
      rcases Memory.mem_write hc with hc | ⟨rfl, -⟩
      · exact hk cell hc
      · assumption
    · split
      · split
        · exact hm
        · subst k
          exact Memory.wf_cons.2 ⟨hk, ha, by assumption, hm⟩
      · split
        · exact h
        · refine Memory.wf_cons.2 ⟨fun cell hc => ?_, ha, by assumption, h⟩
          rcases List.mem_cons.1 hc with rfl | hc
          · simp only; omega
          · have := hk cell hc; omega

/-- A read after a write: the written byte at its address, every other address as before. -/
@[simp] theorem Memory.read_write {m : Memory} (h : m.wf) (a b : Word) (v : Byte) :
    (m.write a v).read b = if b = a then v else m.read b := by
  have hab : b = a ↔ a.toNat = b.toNat := by rw [eq_comm, ← BitVec.toNat_inj]
  induction m with
  | nil =>
    simp only [Memory.write, Memory.listCell]
    split <;> simp_all [Memory.read]
  | cons c m ih =>
    obtain ⟨k, x⟩ := c
    obtain ⟨hk, -, hx, hm⟩ := Memory.wf_cons.1 h
    have ih := ih hm
    simp only [Memory.write]
    by_cases hka : k < a.toNat
    · rw [if_pos hka, Memory.read, ih, Memory.read]
      by_cases hkb : k = b.toNat
      · rw [if_pos hkb, if_pos hkb, if_neg (fun e => by rw [hab] at e; omega)]
      · rw [if_neg hkb, if_neg hkb]
    · rw [if_neg hka]
      by_cases hka' : k = a.toNat
      · rw [if_pos hka']
        by_cases hv : v = Config.unlistedByte
        · rw [Memory.listCell, if_pos hv]
          by_cases hba : b = a
          · rw [if_pos hba, hv]
            exact Memory.read_below m b fun cell hc => by have := hk cell hc; rw [hba]; omega
          · rw [if_neg hba, Memory.read, if_neg (fun e => hba (hab.2 (by omega)))]
        · rw [Memory.listCell, if_neg hv, Memory.read]
          by_cases hba : b = a
          · rw [if_pos (hab.1 hba), if_pos hba]
          · rw [if_neg (fun e => hba (hab.2 e)), if_neg hba, Memory.read, if_neg (fun e => hba (hab.2 (by omega)))]
      · rw [if_neg hka']
        by_cases hv : v = Config.unlistedByte
        · rw [Memory.listCell, if_pos hv]
          by_cases hba : b = a
          · rw [if_pos hba, hv]
            refine Memory.read_below _ b fun cell hc => ?_
            rcases List.mem_cons.1 hc with rfl | hc
            · simp only [hba]; omega
            · have := hk cell hc; rw [hba]; omega
          · rw [if_neg hba]
        · rw [Memory.listCell, if_neg hv, Memory.read]
          by_cases hba : b = a
          · rw [if_pos (hab.1 hba), if_pos hba]
          · rw [if_neg (fun e => hba (hab.2 e)), if_neg hba]

/-- A listed cell reads as its byte. -/
theorem Memory.read_of_mem {m : Memory} (h : m.wf) {a : Word} {v : Byte} (hm : (a.toNat, v) ∈ m) : m.read a = v := by
  induction m with
  | nil => cases hm
  | cons c m ih =>
    obtain ⟨k, x⟩ := c
    obtain ⟨hk, -, -, hwf⟩ := Memory.wf_cons.1 h
    rw [Memory.read]
    rcases List.mem_cons.1 hm with h | h
    · cases h; simp
    · have := hk _ h
      rw [if_neg (by simp only at this; omega), ih hwf h]

/-- Canonical memories that read alike everywhere are equal as data. -/
theorem Memory.ext_read {m₁ m₂ : Memory} (h₁ : m₁.wf) (h₂ : m₂.wf) (h : ∀ a, m₁.read a = m₂.read a) : m₁ = m₂ := by
  have sub : ∀ {m₁ m₂ : Memory}, m₁.wf → m₂.wf → (∀ a, m₁.read a = m₂.read a) → ∀ c ∈ m₁, c ∈ m₂ := by
    intro m₁ m₂ h₁ h₂ h c hc
    obtain ⟨k, x⟩ := c
    obtain ⟨hlt, hx⟩ := h₁.2 _ hc
    have hk : (BitVec.ofNat 32 k).toNat = k := by simpa using Nat.mod_eq_of_lt hlt
    have hr : m₂.read (BitVec.ofNat 32 k) = x := by
      rw [← h]; exact Memory.read_of_mem h₁ (by rw [hk]; exact hc)
    by_contra hno
    have : ∀ m : Memory, (∀ cell ∈ m, cell.2 = x → cell.1 ≠ k) → m.read (BitVec.ofNat 32 k) ≠ x := by
      intro m
      induction m with
      | nil => intro _ e; exact hx e.symm
      | cons d m ih =>
        intro hd
        rw [Memory.read, hk]
        split
        · intro e; exact hd d (List.mem_cons_self ..) e (by assumption)
        · exact ih fun cell hc => hd cell (List.mem_cons_of_mem _ hc)
    exact this m₂ (fun cell hc hv hk' => hno (by rwa [← hv, ← hk'])) hr
  have key : ∀ c, c ∈ m₁ ↔ c ∈ m₂ := fun c =>
    ⟨sub h₁ h₂ h c, sub h₂ h₁ (fun a => (h a).symm) c⟩
  have nodup : ∀ {m : Memory}, m.wf → m.Nodup := fun hm =>
    List.Pairwise.imp (fun {x y} (hlt : x.1 < y.1) (e : x = y) => by subst e; omega) hm.1
  have hp := (List.perm_ext_iff_of_nodup (nodup h₁) (nodup h₂)).2 key
  exact hp.eq_of_pairwise (le := fun x y => x.1 < y.1)
    (fun a b _ _ h h' => by omega) h₁.1 h₂.1

end Sys2Proof.Machine
end

