-- ==== Sys2Proof/Laws/Tables.lean ====
section
/-! SUPPORT. What the table operations do, entry by entry (00_scope.md R11; 41_table_generator.md R141 to R143). -/

namespace Sys2Proof

theorem allBytes_getElem {n : Nat} (h : n < allBytes.length) : allBytes[n] = BitVec.ofNat 8 n := by
  simp [allBytes]

theorem mem_allBytes (b : Byte) : b ∈ allBytes := by
  simp only [allBytes, List.mem_map, List.mem_range]
  exact ⟨b.toNat, b.isLt, by simp⟩

theorem allBytes_nodup : allBytes.Nodup := by
  refine (List.nodup_map_iff_inj_on List.nodup_range).2 fun a ha b hb h => ?_
  have := congrArg BitVec.toNat h
  simp only [List.mem_range] at ha hb
  simpa [Nat.mod_eq_of_lt ha, Nat.mod_eq_of_lt hb] using this

@[simp] theorem Table.toList_ofList (l : List Byte) (h : l.length = 256) : (Table.ofList l h).toList = l := rfl

theorem Table.length_toList (T : Table) : T.toList.length = 256 := by simp

theorem Table.entry_eq_toList (T : Table) (i : Byte) :
    T.entry i = T.toList[i.toNat]'(by simpa using i.isLt) := by simp [Table.entry]

@[simp] theorem Table.entry_ofFun (f : Byte → Byte) (i : Byte) : (Table.ofFun f).entry i = f i := by
  rw [Table.entry_eq_toList]
  simp [Table.ofFun, allBytes_getElem]

theorem Table.getElem?_toList (T : Table) (i : Byte) : T.toList[i.toNat]? = some (T.entry i) := by
  rw [Table.entry_eq_toList]; exact List.getElem?_eq_getElem _

/-- Two tables with equal entries are equal. -/
theorem Table.ext_entry {T U : Table} (h : ∀ i, T.entry i = U.entry i) : T = U := by
  refine Vector.ext fun n hn => ?_
  have := h (BitVec.ofNat 8 n)
  simpa [Table.entry, Nat.mod_eq_of_lt hn] using this

theorem Table.toList_eq_map (T : Table) : T.toList = allBytes.map T.entry := by
  have : T = Table.ofFun T.entry := Table.ext_entry fun i => by simp
  conv_lhs => rw [this]
  rfl

@[simp] theorem Table.entry_put (T : Table) (i v j : Byte) :
    (T.put i v).entry j = if i = j then v else T.entry j := by
  simp [Table.put, Table.entry, Vector.getElem_set, BitVec.toNat_inj]

@[simp] theorem Table.entry_zero (i : Byte) : Table.zero.entry i = 0#8 := by simp [Table.zero]

@[simp] theorem Table.entry_ident (i : Byte) : Table.ident.entry i = i := by simp [Table.ident]

/-- `same` is equality. -/
@[simp] theorem Table.same_iff (T U : Table) : T.same U = true ↔ T = U := by
  simp [Table.same, Vector.toList_inj]

theorem Table.toList_moveToFront (F : Table) (p : Byte) :
    (F.moveToFront p).toList = F.entry p :: F.toList.eraseIdx p.toNat := rfl

theorem Table.toList_moveToBack (F : Table) (p : Byte) :
    (F.moveToBack p).toList = F.toList.eraseIdx p.toNat ++ [F.entry p] := rfl

/-- Step 1, entry by entry (R141). -/
theorem Table.entry_moveToFront (F : Table) (p q : Byte) :
    (F.moveToFront p).entry q = if q = 0#8 then F.entry p else if q ≤ p then F.entry (q - 1#8) else F.entry q := by
  refine Option.some.inj ?_
  rw [← Table.getElem?_toList, Table.toList_moveToFront, List.getElem?_cons]
  by_cases h0 : q = 0#8
  · simp [h0]
  · have h1 : q.toNat ≠ 0 := fun h => h0 (BitVec.eq_of_toNat_eq (by simpa using h))
    have hsub : (q - 1#8).toNat = q.toNat - 1 := by bv_omega
    rw [if_neg h1, if_neg h0, List.getElem?_eraseIdx]
    simp only [BitVec.le_def]
    by_cases hle : q.toNat ≤ p.toNat
    · rw [if_pos (by omega), if_pos hle, ← hsub, Table.getElem?_toList]
    · rw [if_neg (by omega), if_neg hle, ← Table.getElem?_toList]
      congr 1
      omega

/-- Step 2, entry by entry (R142). -/
theorem Table.entry_moveToBack (F : Table) (p q : Byte) :
    (F.moveToBack p).entry q = if q = 255#8 then F.entry p else if p ≤ q then F.entry (q + 1#8) else F.entry q := by
  have hp := p.isLt
  have hq := q.isLt
  have hlen : (F.toList.eraseIdx p.toNat).length = 255 := by
    simp [List.length_eraseIdx]; omega
  refine Option.some.inj ?_
  rw [← Table.getElem?_toList, Table.toList_moveToBack]
  by_cases h0 : q = 255#8
  · subst h0
    rw [List.getElem?_append_right (by rw [hlen]; decide), hlen]
    rfl
  · have h1 : q.toNat ≠ 255 := fun h => h0 (BitVec.eq_of_toNat_eq (by simpa using h))
    have hadd : (q + 1#8).toNat = q.toNat + 1 := by bv_omega
    rw [List.getElem?_append_left (by rw [hlen]; omega), List.getElem?_eraseIdx, if_neg h0]
    simp only [BitVec.le_def]
    by_cases hle : p.toNat ≤ q.toNat
    · rw [if_neg (by omega), if_pos hle, ← hadd, Table.getElem?_toList]
    · rw [if_pos (by omega), if_neg hle, Table.getElem?_toList]

theorem Table.rotateAround_eq (F : Table) (k : Byte) :
    F.rotateAround k =
      (if k < 255#8 then (if 0#8 < k then F.moveToFront (k - 1#8) else F).moveToBack (k + 1#8)
       else if 0#8 < k then F.moveToFront (k - 1#8) else F) := rfl

@[simp] theorem Table.forward_nil (B : Table) : B.forward [] = B := rfl

theorem Table.forward_cons (B : Table) (k : Byte) (key : List Byte) :
    B.forward (k :: key) = (B.rotateAround k).forward key := rfl

/-- Later key bytes operate on the table left by earlier ones (R144 (b)). -/
theorem Table.forward_append (B : Table) (key₁ key₂ : List Byte) :
    B.forward (key₁ ++ key₂) = (B.forward key₁).forward key₂ := List.foldl_append

theorem testBit_foldl_or_pow (l : List Byte) (acc n : Nat) :
    (l.foldl (fun seen b => seen ||| 2 ^ b.toNat) acc).testBit n = (acc.testBit n || l.any fun b => b.toNat == n) := by
  induction l generalizing acc with
  | nil => simp
  | cons b l ih =>
    rw [List.foldl_cons, ih, Nat.testBit_or, Nat.testBit_two_pow, List.any_cons, Bool.or_assoc]
    rfl

theorem foldl_or_pow_lt (l : List Byte) (acc : Nat) (h : acc < 2 ^ 256) :
    l.foldl (fun seen b => seen ||| 2 ^ b.toNat) acc < 2 ^ 256 := by
  induction l generalizing acc with
  | nil => simpa
  | cons b l ih =>
    exact ih _ (Nat.or_lt_two_pow h (Nat.pow_lt_pow_right (by decide) b.isLt))

/-- A table is a permutation exactly when every byte value stands in it. -/
theorem Table.isPerm_iff_mem (T : Table) : T.isPerm = true ↔ ∀ v : Byte, v ∈ T.toList := by
  unfold Table.isPerm
  rw [beq_iff_eq]
  constructor
  · intro h v
    have hb := testBit_foldl_or_pow T.toList 0 v.toNat
    rw [h, Nat.testBit_two_pow_sub_one] at hb
    have hv := v.isLt
    simp only [Nat.zero_testBit, Bool.false_or, show decide (v.toNat < 256) = true by simpa using hv] at hb
    obtain ⟨b, hmem, hbv⟩ := List.any_eq_true.1 hb.symm
    have : b = v := BitVec.eq_of_toNat_eq (by simpa using hbv)
    exact this ▸ hmem
  · intro h
    refine Nat.eq_of_testBit_eq fun n => ?_
    rw [testBit_foldl_or_pow, Nat.testBit_two_pow_sub_one, Nat.zero_testBit, Bool.false_or]
    by_cases hn : n < 256
    · rw [decide_eq_true hn]
      exact List.any_eq_true.2 ⟨BitVec.ofNat 8 n, h _, by simp [Nat.mod_eq_of_lt hn]⟩
    · rw [decide_eq_false hn]
      refine Bool.eq_false_iff.2 fun hany => ?_
      obtain ⟨b, -, hb⟩ := List.any_eq_true.1 hany
      have := b.isLt
      simp only [beq_iff_eq] at hb
      omega

/-- A table is a permutation exactly when every byte value is some entry. -/
theorem Table.isPerm_iff_surjective (T : Table) : T.isPerm = true ↔ Function.Surjective T.entry := by
  rw [Table.isPerm_iff_mem, Table.toList_eq_map]
  simp [mem_allBytes, Function.Surjective]

/-- A table is a permutation exactly when no two entries are equal. -/
theorem Table.isPerm_iff_injective (T : Table) : T.isPerm = true ↔ Function.Injective T.entry := by
  rw [Table.isPerm_iff_surjective]
  exact Finite.injective_iff_surjective.symm

/-- The clear form of R11: every byte value occurs exactly once among the entries. -/
theorem Table.isPerm_iff_count (T : Table) : T.isPerm = true ↔ ∀ v : Byte, T.toList.count v = 1 := by
  constructor
  · intro h v
    have hinj := (Table.isPerm_iff_injective T).1 h
    have hnd : T.toList.Nodup := by
      rw [Table.toList_eq_map]; exact allBytes_nodup.map hinj
    exact List.count_eq_one_of_mem hnd ((Table.isPerm_iff_mem T).1 h v)
  · intro h
    exact (Table.isPerm_iff_mem T).2 fun v => List.count_pos_iff.1 (by rw [h v]; decide)

/-- Moving an entry to the front loses no value (R141). -/
theorem Table.moveToFront_surjective {F : Table} (p : Byte) (hF : Function.Surjective F.entry) :
    Function.Surjective (F.moveToFront p).entry := by
  intro v
  obtain ⟨i, rfl⟩ := hF v
  by_cases hi : i = p
  · exact ⟨0#8, by rw [Table.entry_moveToFront]; simp [hi]⟩
  · by_cases h : i < p
    · refine ⟨i + 1#8, ?_⟩
      rw [Table.entry_moveToFront, if_neg (by bv_omega), if_pos (by bv_omega)]
      congr 1; bv_omega
    · exact ⟨i, by rw [Table.entry_moveToFront, if_neg (by bv_omega), if_neg (by bv_omega)]⟩

/-- Moving an entry to the back loses no value (R142). -/
theorem Table.moveToBack_surjective {F : Table} (p : Byte) (hF : Function.Surjective F.entry) :
    Function.Surjective (F.moveToBack p).entry := by
  intro v
  obtain ⟨i, rfl⟩ := hF v
  by_cases hi : i = p
  · exact ⟨255#8, by rw [Table.entry_moveToBack]; simp [hi]⟩
  · by_cases h : p < i
    · refine ⟨i - 1#8, ?_⟩
      rw [Table.entry_moveToBack, if_neg (by bv_omega), if_pos (by bv_omega)]
      congr 1; bv_omega
    · exact ⟨i, by rw [Table.entry_moveToBack, if_neg (by bv_omega), if_neg (by bv_omega)]⟩

/-- One key byte keeps a permutation a permutation. -/
theorem Table.rotateAround_isPerm {F : Table} (k : Byte) (hF : F.isPerm = true) : (F.rotateAround k).isPerm = true := by
  rw [Table.isPerm_iff_surjective] at *
  rw [Table.rotateAround_eq]
  split
  · refine Table.moveToBack_surjective _ ?_
    split
    · exact Table.moveToFront_surjective _ hF
    · exact hF
  · split
    · exact Table.moveToFront_surjective _ hF
    · exact hF

theorem Table.ident_isPerm : Table.ident.isPerm = true :=
  (Table.isPerm_iff_injective _).2 fun i j h => by simpa using h

theorem Table.zero_not_isPerm : Table.zero.isPerm = false := by
  rw [← Bool.not_eq_true, Table.isPerm_iff_injective]
  intro h
  exact absurd (@h 0#8 1#8 (by simp)) (by decide)

/-- The value at the position of a value is that value. -/
theorem Table.entry_position {F : Table} (hF : F.isPerm = true) (v : Byte) : F.entry (F.position v) = v := by
  have hmem := (Table.isPerm_iff_mem F).1 hF v
  have hlt : F.toList.idxOf v < F.toList.length := List.idxOf_lt_length_iff.2 hmem
  have hlt' : F.toList.idxOf v < 256 := by simpa using hlt
  rw [Table.entry_eq_toList]
  have : (F.position v).toNat = F.toList.idxOf v := by simp [Table.position, Nat.mod_eq_of_lt hlt']
  simp only [this]
  exact List.getElem_idxOf hlt

/-- The position of an entry of a permutation is its index. -/
theorem Table.position_entry {F : Table} (hF : F.isPerm = true) (i : Byte) : F.position (F.entry i) = i :=
  (Table.isPerm_iff_injective F).1 hF (Table.entry_position hF _)

theorem Table.invert_of_isPerm {F : Table} (hF : F.isPerm = true) (u : Table) : F.invert u = Table.ofFun F.position := by
  simp [Table.invert, hF]

/-- `invert` of a table that is no permutation is the free table it was given. -/
theorem Table.invert_of_not_isPerm {F : Table} (hF : F.isPerm = false) (u : Table) : F.invert u = u := by
  simp [Table.invert, hF]

end Sys2Proof
end

