-- ==== Sys2Proof/Laws/Operands.lean ====
section
/-! SUPPORT. What the operand forms say: element addresses, key bytes, overlap, the cursor (20_memory.md R69, R80;
43_transform.md R176, R180; 70_reset_and_hazards.md R276). -/

namespace Sys2Proof.Machine

theorem elemAddr_toNat (p : Word) (n : Nat) : (elemAddr p n).toNat = (p.toNat + n) % 2 ^ 32 := by
  simp [elemAddr]

/-- Within 2^32 elements, different elements of a sequence have different addresses (R276: a buffer cannot overlap
itself). -/
theorem elemAddr_inj {p : Word} {i j : Nat} (hi : i < 2 ^ 32) (hj : j < 2 ^ 32) :
    elemAddr p i = elemAddr p j ↔ i = j := by
  refine ⟨fun h => ?_, fun h => h ▸ rfl⟩
  have h := congrArg BitVec.toNat h
  rw [elemAddr_toNat, elemAddr_toNat] at h
  have := p.isLt
  omega

/-- Element `n` of the sequence that starts at element `k` is element `k + n`. -/
theorem elemAddr_elemAddr (p : Word) (k n : Nat) : elemAddr (elemAddr p k) n = elemAddr p (k + n) := by
  refine BitVec.eq_of_toNat_eq ?_
  rw [elemAddr_toNat, elemAddr_toNat, elemAddr_toNat]
  omega

@[simp] theorem Memory.length_bytesAt (m : Memory) (p : Word) (n : Nat) : (m.bytesAt p n).length = n := by
  simp [Memory.bytesAt]

theorem Memory.getElem?_bytesAt (m : Memory) (p : Word) (n j : Nat) (h : j < n) :
    (m.bytesAt p n)[j]? = some (m.read (elemAddr p j)) := by
  simp [Memory.bytesAt, List.getElem?_range h]

/-- The bytes of a sequence depend on the bytes at its addresses alone. -/
theorem Memory.bytesAt_congr {m₁ m₂ : Memory} {p₁ p₂ : Word} {n : Nat}
    (h : ∀ j < n, m₁.read (elemAddr p₁ j) = m₂.read (elemAddr p₂ j)) : m₁.bytesAt p₁ n = m₂.bytesAt p₂ n :=
  List.map_congr_left fun j hj => h j (List.mem_range.1 hj)

@[simp] theorem Memory.entry_tableAt (m : Memory) (p : Word) (i : Byte) :
    (m.tableAt p).entry i = m.read (elemAddr p i.toNat) := by simp [Memory.tableAt]

/-- Two non-empty sequences overlap exactly when an element of one and an element of the other have one address
(R276; 93_implementation_defined.md U4). -/
theorem overlaps_iff {p q : Word} {np nq : Nat} (hp : 0 < np) (hq : 0 < nq) (hp' : np ≤ 2 ^ 32) (hq' : nq ≤ 2 ^ 32) :
    overlaps p np q nq = true ↔ ∃ i < np, ∃ j < nq, elemAddr p i = elemAddr q j := by
  have hpl := p.isLt
  have hql := q.isLt
  have key : ∀ i j, elemAddr p i = elemAddr q j ↔ (p.toNat + i) % 2 ^ 32 = (q.toNat + j) % 2 ^ 32 := fun i j => by
    rw [← BitVec.toNat_inj, elemAddr_toNat, elemAddr_toNat]
  simp only [overlaps, Bool.or_eq_true, decide_eq_true_eq, BitVec.toNat_sub, key]
  constructor
  · rintro (h | h)
    · exact ⟨_, h, 0, hq, by omega⟩
    · exact ⟨0, hp, _, h, by omega⟩
  · rintro ⟨i, hi, j, hj, h⟩
    by_cases hle : j ≤ i
    · left
      have : (2 ^ 32 - p.toNat + q.toNat) % 2 ^ 32 = i - j := by omega
      omega
    · right
      have : (2 ^ 32 - q.toNat + p.toNat) % 2 ^ 32 = j - i := by omega
      omega

/-- The cursor advance is `(cur + 1) mod key_size` (R173, R180 (c)). -/
theorem nextCursor_toNat {ks cur : Word} (h : cur < ks) : (nextCursor ks cur).toNat = (cur.toNat + 1) % ks.toNat := by
  have hk := ks.isLt
  rw [BitVec.lt_def] at h
  have hs : (cur + 1#32).toNat = cur.toNat + 1 := by
    rw [BitVec.toNat_add]; exact Nat.mod_eq_of_lt (by simp; omega)
  unfold nextCursor
  split
  · next e => rw [← hs, e, Nat.mod_self]; rfl
  · next e =>
    have : cur.toNat + 1 ≠ ks.toNat := fun e' => e (BitVec.eq_of_toNat_eq (by rw [hs, e']))
    rw [hs, Nat.mod_eq_of_lt (by omega)]

/-- The cursor stays inside the key (invariant I3, R23, R176). -/
theorem nextCursor_lt {ks cur : Word} (h : cur < ks) : nextCursor ks cur < ks := by
  rw [BitVec.lt_def, nextCursor_toNat h]
  exact Nat.mod_lt _ (by rw [BitVec.lt_def] at h; omega)

end Sys2Proof.Machine
end

