-- ==== Sys2Proof/Laws/State.lean ====
section
/-! SUPPORT. The small lemmas of the state updates: one per field per update, true by rfl. -/

namespace Sys2Proof.Machine

section complete

variable (s : State) (err : BitVec 4) (result : Bool)

@[simp] theorem State.complete_base : (s.complete err result).base = s.base := rfl
@[simp] theorem State.complete_ctx : (s.complete err result).ctx = s.ctx := rfl
@[simp] theorem State.complete_sfwd : (s.complete err result).sfwd = s.sfwd := rfl
@[simp] theorem State.complete_sinv : (s.complete err result).sinv = s.sinv := rfl
@[simp] theorem State.complete_statusErr : (s.complete err result).statusErr = err := rfl
@[simp] theorem State.complete_statusResult : (s.complete err result).statusResult = result := rfl
@[simp] theorem State.complete_modeLit : (s.complete err result).modeLit = s.modeLit := rfl
@[simp] theorem State.complete_argKeyPtr : (s.complete err result).argKeyPtr = s.argKeyPtr := rfl
@[simp] theorem State.complete_argKeySize : (s.complete err result).argKeySize = s.argKeySize := rfl
@[simp] theorem State.complete_argBufPtr : (s.complete err result).argBufPtr = s.argBufPtr := rfl
@[simp] theorem State.complete_argBufSize : (s.complete err result).argBufSize = s.argBufSize := rfl
@[simp] theorem State.complete_argSrcPtr : (s.complete err result).argSrcPtr = s.argSrcPtr := rfl
@[simp] theorem State.complete_argSrcLen : (s.complete err result).argSrcLen = s.argSrcLen := rfl
@[simp] theorem State.complete_winCtx : (s.complete err result).winCtx = s.winCtx := rfl
@[simp] theorem State.complete_winTaddr : (s.complete err result).winTaddr = s.winTaddr := rfl
@[simp] theorem State.complete_mem : (s.complete err result).mem = s.mem := rfl
@[simp] theorem State.complete_litEncCursorSrc : (s.complete err result).litEncCursorSrc = s.litEncCursorSrc := rfl
@[simp] theorem State.complete_pending : (s.complete err result).pending = s.pending := rfl
@[simp] theorem State.complete_replies : (s.complete err result).replies = s.replies := rfl
@[simp] theorem State.complete_freeSeq : (s.complete err result).freeSeq = s.freeSeq + 1 := rfl

end complete

section setSlot

variable (s : State) (c : Nat) (sl : Slot)

@[simp] theorem State.setSlot_base : (s.setSlot c sl).base = s.base := rfl
@[simp] theorem State.setSlot_ctx : (s.setSlot c sl).ctx = s.ctx.set c sl := rfl
@[simp] theorem State.setSlot_sfwd : (s.setSlot c sl).sfwd = s.sfwd := rfl
@[simp] theorem State.setSlot_sinv : (s.setSlot c sl).sinv = s.sinv := rfl
@[simp] theorem State.setSlot_statusErr : (s.setSlot c sl).statusErr = s.statusErr := rfl
@[simp] theorem State.setSlot_statusResult : (s.setSlot c sl).statusResult = s.statusResult := rfl
@[simp] theorem State.setSlot_modeLit : (s.setSlot c sl).modeLit = s.modeLit := rfl
@[simp] theorem State.setSlot_argKeyPtr : (s.setSlot c sl).argKeyPtr = s.argKeyPtr := rfl
@[simp] theorem State.setSlot_argKeySize : (s.setSlot c sl).argKeySize = s.argKeySize := rfl
@[simp] theorem State.setSlot_argBufPtr : (s.setSlot c sl).argBufPtr = s.argBufPtr := rfl
@[simp] theorem State.setSlot_argBufSize : (s.setSlot c sl).argBufSize = s.argBufSize := rfl
@[simp] theorem State.setSlot_argSrcPtr : (s.setSlot c sl).argSrcPtr = s.argSrcPtr := rfl
@[simp] theorem State.setSlot_argSrcLen : (s.setSlot c sl).argSrcLen = s.argSrcLen := rfl
@[simp] theorem State.setSlot_winCtx : (s.setSlot c sl).winCtx = s.winCtx := rfl
@[simp] theorem State.setSlot_winTaddr : (s.setSlot c sl).winTaddr = s.winTaddr := rfl
@[simp] theorem State.setSlot_mem : (s.setSlot c sl).mem = s.mem := rfl
@[simp] theorem State.setSlot_litEncCursorSrc : (s.setSlot c sl).litEncCursorSrc = s.litEncCursorSrc := rfl
@[simp] theorem State.setSlot_pending : (s.setSlot c sl).pending = s.pending := rfl
@[simp] theorem State.setSlot_replies : (s.setSlot c sl).replies = s.replies := rfl
@[simp] theorem State.setSlot_freeSeq : (s.setSlot c sl).freeSeq = s.freeSeq := rfl

end setSlot

/-- Every outcome of a command goes through `complete`. -/
@[simp] theorem State.raise_eq (s : State) (k : ErrKind) : s.raise k = s.complete k.code false := rfl

@[simp] theorem State.succeed_eq (s : State) : s.succeed = s.complete 0#4 false := rfl

@[simp] theorem State.succeedWith_eq (s : State) (v : Bool) : s.succeedWith v = s.complete 0#4 v := rfl

@[simp] theorem State.illegalCommand_eq (s : State) : s.illegalCommand = s.complete 5#4 false := rfl

section slots

variable (s : State) (c d : Nat) (sl : Slot) (err : BitVec 4) (result : Bool)

@[simp] theorem State.nctx_complete : (s.complete err result).nctx = s.nctx := rfl

@[simp] theorem State.nctx_setSlot : (s.setSlot c sl).nctx = s.nctx := by simp [State.nctx]

@[simp] theorem State.slot_complete : (s.complete err result).slot c = s.slot c := rfl

/-- Writing slot `c` changes slot `c` alone (R123). -/
theorem State.slot_setSlot (h : c < s.nctx) : (s.setSlot c sl).slot d = if d = c then some sl else s.slot d := by
  unfold State.nctx at h
  simp only [State.slot, State.setSlot_ctx, List.getElem?_set]
  by_cases hd : c = d
  · subst hd; simp [h]
  · rw [if_neg hd, if_neg (fun e => hd e.symm)]

theorem State.slot_setSlot_self (h : c < s.nctx) : (s.setSlot c sl).slot c = some sl := by
  rw [State.slot_setSlot _ _ _ _ h, if_pos rfl]

@[simp] theorem State.slot_setSlot_ne (h : d ≠ c) : (s.setSlot c sl).slot d = s.slot d := by
  simp only [State.slot, State.setSlot_ctx, List.getElem?_set]
  rw [if_neg (fun e => h e.symm)]

/-- Writing back what a slot holds changes nothing. -/
theorem State.setSlot_self (h : s.slot c = some sl) : s.setSlot c sl = s := by
  obtain ⟨hlt, rfl⟩ := List.getElem?_eq_some_iff.1 h
  simp [State.setSlot]

/-- A context is absent exactly when its number is not below `P_NCTX` (R93, R232). -/
theorem State.slot_eq_none_iff : s.slot c = none ↔ s.nctx ≤ c := List.getElem?_eq_none_iff

theorem State.slot_lt {s : State} {c : Nat} {sl : Slot} (h : s.slot c = some sl) : c < s.nctx :=
  (List.getElem?_eq_some_iff.1 h).1

theorem State.exists_slot {s : State} {c : Nat} (h : c < s.nctx) : ∃ sl, s.slot c = some sl :=
  ⟨s.ctx[c], List.getElem?_eq_some_iff.2 ⟨h, rfl⟩⟩

end slots

@[simp] theorem State.complete_setSlot (s : State) (c : Nat) (sl : Slot) (err : BitVec 4) (result : Bool) :
    (s.complete err result).setSlot c sl = (s.setSlot c sl).complete err result := rfl

end Sys2Proof.Machine
end

