-- ==== Sys2Proof/Laws/Ops.lean ====
section
/-! SUPPORT. What each shared operation can do, said once (41_table_generator.md R140; 42_table_validator.md R160;
43_transform.md R173 to R176; 70_reset_and_hazards.md R260). -/

namespace Sys2Proof.Machine

section derive

theorem State.derive_fst (s : State) (sl : Slot) : (s.derive sl).1 = s.base.forward (s.mem.keyOf sl) := rfl

theorem State.derive_snd (s : State) (sl : Slot) :
    (s.derive sl).2 = (s.base.forward (s.mem.keyOf sl)).invert (Config.undefinedInverse s.freeSeq) := rfl

/-- `derive` reads `BASE`, the key bytes and, for its free value, the model's counter. -/
theorem State.derive_congr {s t : State} {sl sl' : Slot} (hb : t.base = s.base) (hf : t.freeSeq = s.freeSeq)
    (hk : t.mem.keyOf sl' = s.mem.keyOf sl) : t.derive sl' = s.derive sl := by
  simp [State.derive, hb, hf, hk]

@[simp] theorem State.regenerate_keyPtr (s : State) (sl : Slot) : (s.regenerate sl).keyPtr = sl.keyPtr := rfl

@[simp] theorem State.regenerate_keySize (s : State) (sl : Slot) : (s.regenerate sl).keySize = sl.keySize := rfl

@[simp] theorem State.regenerate_fwd (s : State) (sl : Slot) : (s.regenerate sl).fwd = (s.derive sl).1 := rfl

@[simp] theorem State.regenerate_inv (s : State) (sl : Slot) : (s.regenerate sl).inv = (s.derive sl).2 := rfl

@[simp] theorem State.regenerate_encCur (s : State) (sl : Slot) : (s.regenerate sl).encCur = sl.encCur := rfl

@[simp] theorem State.regenerate_decCur (s : State) (sl : Slot) : (s.regenerate sl).decCur = sl.decCur := rfl

/-- A slot is malformed exactly when a key size is declared with no key bound (R19). -/
theorem Slot.malformed_iff (sl : Slot) : sl.malformed = true ↔ 0#32 < sl.keySize ∧ sl.keyPtr = nullPtr := by
  simp [Slot.malformed]

theorem Slot.destroyed_wellFormed : Slot.destroyed.malformed = false := by decide

end derive

section validate

/-- The state after the validator ran to a verdict: the scratch tables are cleared, and nothing else changed (R160). -/
def State.scratchCleared (s : State) : State := { s with sfwd := Table.zero, sinv := Table.zero }

theorem State.scratchCleared_self {s : State} (hf : s.sfwd = Table.zero) (hi : s.sinv = Table.zero) :
    s.scratchCleared = s := by
  cases s; simp_all [State.scratchCleared]

/-- All that `validate` can do (R160, R161): it raises for an absent context or a malformed slot; else it clears the
scratch and says whether both tables are what `derive` gives now. -/
theorem State.validate_eq (s : State) (c : Nat) :
    s.validate c =
      match s.slot c with
      | none => .error .invalidArgument
      | some sl =>
        if sl.malformed then .error .invalidArgument
        else .ok ((s.derive sl).1.same sl.fwd && (s.derive sl).2.same sl.inv, s.scratchCleared) := rfl

theorem State.validate_absent {s : State} {c : Nat} (h : s.slot c = none) :
    s.validate c = .error .invalidArgument := by simp [State.validate_eq, h]

theorem State.validate_malformed {s : State} {c : Nat} {sl : Slot} (h : s.slot c = some sl)
    (hm : sl.malformed = true) : s.validate c = .error .invalidArgument := by simp [State.validate_eq, h, hm]

theorem State.validate_verdict {s : State} {c : Nat} {sl : Slot} (h : s.slot c = some sl)
    (hm : sl.malformed = false) :
    s.validate c = .ok (decide ((s.derive sl).1 = sl.fwd ∧ (s.derive sl).2 = sl.inv), s.scratchCleared) := by
  have : (decide ((s.derive sl).1 = sl.fwd ∧ (s.derive sl).2 = sl.inv)) =
      ((s.derive sl).1.same sl.fwd && (s.derive sl).2.same sl.inv) := by
    rw [Bool.eq_iff_iff]; simp only [decide_eq_true_eq, Bool.and_eq_true, Table.same_iff]
  rw [State.validate_eq, h, this]
  simp only [hm]
  rfl

end validate

section loop

variable {draw : Option Nat} {sl : Slot} {buf : Word} {combine : Byte → Byte → Byte}

theorem transformLoop_succ (count n : Nat) (cur : Word) (m : Memory) :
    transformLoop draw sl buf combine (count + 1) n cur m =
      transformLoop draw sl buf combine count (n + 1) (nextCursor sl.keySize cur)
        (m.write (elemAddr buf n) (combine (m.read (elemAddr buf n)) (loopKeyByte draw sl n cur m))) := rfl

/-- The loop keeps the canonical form of memory. -/
theorem transformLoop_wf {m : Memory} (h : m.wf) (count n : Nat) (cur : Word) :
    (transformLoop draw sl buf combine count n cur m).1.wf := by
  induction count generalizing n cur m with
  | zero => exact h
  | succ count ih => exact ih (Memory.wf_write h _ _) _ _

/-- The loop writes buffer bytes only (R61). -/
theorem transformLoop_frame {m : Memory} (h : m.wf) (count n : Nat) (cur a : Word)
    (ha : ∀ j, n ≤ j → j < n + count → a ≠ elemAddr buf j) :
    (transformLoop draw sl buf combine count n cur m).1.read a = m.read a := by
  induction count generalizing n cur m with
  | zero => rfl
  | succ count ih =>
    rw [transformLoop_succ, ih (Memory.wf_write h _ _) _ _ fun j h₁ h₂ => ha j (by omega) (by omega),
      Memory.read_write h, if_neg (ha n (by omega) (by omega))]

/-- The cursor law (R176): the index written back is `(c0 + size) mod key_size`. -/
theorem transformLoop_cursor (m : Memory) (count n : Nat) (cur : Word) (hc : cur < sl.keySize) :
    (transformLoop draw sl buf combine count n cur m).2.toNat = (cur.toNat + count) % sl.keySize.toNat := by
  induction count generalizing n cur m with
  | zero =>
    rw [BitVec.lt_def] at hc
    simpa [transformLoop] using (Nat.mod_eq_of_lt hc).symm
  | succ count ih =>
    rw [transformLoop_succ, ih _ _ _ (nextCursor_lt hc), nextCursor_toNat hc, Nat.mod_add_mod]
    congr 1; omega

/-- The byte law (R176, R179): where the buffer and the key share no address, buffer byte `j` is combined with key byte
`(c0 + j) mod key_size`, and both are the bytes memory held before the loop. -/
theorem transformLoop_bytes {m : Memory} (h : m.wf) (count n : Nat) (cur : Word) (hc : cur < sl.keySize)
    (hsize : n + count ≤ 2 ^ 32)
    (hdis : ∀ j, n ≤ j → j < n + count → ∀ i, i < sl.keySize.toNat → elemAddr buf j ≠ elemAddr sl.keyPtr i)
    (j : Nat) (hj : n ≤ j) (hj' : j < n + count) :
    (transformLoop none sl buf combine count n cur m).1.read (elemAddr buf j) =
      combine (m.read (elemAddr buf j))
        (m.read (elemAddr sl.keyPtr ((cur.toNat + (j - n)) % sl.keySize.toNat))) := by
  have hks : 0 < sl.keySize.toNat := by rw [BitVec.lt_def] at hc; omega
  induction count generalizing n cur m with
  | zero => omega
  | succ count ih =>
    rw [transformLoop_succ]
    by_cases hjn : j = n
    · subst hjn
      rw [transformLoop_frame (Memory.wf_write h _ _) _ _ _ _ fun j' h₁ h₂ e => by
          rw [elemAddr_inj (by omega) (by omega)] at e; omega,
        Memory.read_write h, if_pos rfl]
      rw [BitVec.lt_def] at hc
      simp only [loopKeyByte, Nat.sub_self, Nat.add_zero, Nat.mod_eq_of_lt hc]
    · rw [ih (Memory.wf_write h _ _) _ _ (nextCursor_lt hc) (by omega)
          (fun j h₁ h₂ => hdis j (by omega) (by omega)) (by omega) (by omega),
        Memory.read_write h, Memory.read_write h, if_neg, if_neg, nextCursor_toNat hc, Nat.mod_add_mod]
      · congr 4; omega
      · exact fun e => hdis n (by omega) (by omega) _ (Nat.mod_lt _ hks) e.symm
      · rw [elemAddr_inj (by omega) (by omega)]; exact hjn

end loop

section transform

variable (s : State) (sl : Slot) (cur : Word) (combine : Byte → Byte → Byte)

theorem State.transform_wf (h : s.mem.wf) : (s.transform sl cur combine).1.wf := transformLoop_wf h _ _ _

/-- Every byte outside the buffer reads as before, whatever else is promised (R61). -/
theorem State.transform_frame (h : s.mem.wf) (a : Word)
    (ha : ∀ n < s.argBufSize.toNat, a ≠ elemAddr s.argBufPtr n) :
    (s.transform sl cur combine).1.read a = s.mem.read a :=
  transformLoop_frame h _ _ _ _ fun j _ hj => ha j (by omega)

/-- Where the spec promises the loop's result, no free value is drawn. -/
theorem State.loopDraw_eq_none (hc : cur < sl.keySize) (hb : 0#32 < s.argBufSize)
    (hdis : ∀ n < s.argBufSize.toNat, ∀ i < sl.keySize.toNat, elemAddr s.argBufPtr n ≠ elemAddr sl.keyPtr i) :
    s.loopDraw sl cur = none := by
  have hks : 0 < sl.keySize.toNat := by rw [BitVec.lt_def] at hc; omega
  have hbs : 0 < s.argBufSize.toNat := by simpa [BitVec.lt_def] using hb
  have h1 : ¬ sl.keySize ≤ cur := BitVec.not_le.2 hc
  have h2 : overlaps s.argBufPtr s.argBufSize.toNat sl.keyPtr sl.keySize.toNat = false := by
    rw [← Bool.not_eq_true, overlaps_iff hbs hks s.argBufSize.isLt.le sl.keySize.isLt.le]
    rintro ⟨i, hi, j, hj, h⟩
    exact hdis i hi j hj h
  simp [State.loopDraw, h1, h2]

/-- The result of the loop where the spec promises it (R176, R179). -/
theorem State.transform_bytes (h : s.mem.wf) (hc : cur < sl.keySize) (hb : 0#32 < s.argBufSize)
    (hdis : ∀ n < s.argBufSize.toNat, ∀ i < sl.keySize.toNat, elemAddr s.argBufPtr n ≠ elemAddr sl.keyPtr i)
    (n : Nat) (hn : n < s.argBufSize.toNat) :
    (s.transform sl cur combine).1.read (elemAddr s.argBufPtr n) =
      combine (s.mem.read (elemAddr s.argBufPtr n))
        (s.mem.read (elemAddr sl.keyPtr ((cur.toNat + n) % sl.keySize.toNat))) := by
  have := s.argBufSize.isLt
  rw [State.transform, State.loopDraw_eq_none s sl cur hc hb hdis]
  simpa using transformLoop_bytes (combine := combine) h s.argBufSize.toNat 0 cur hc (by omega)
    (fun j _ hj => hdis j (by omega)) n (by omega) (by omega)

/-- The cursor law (R176). -/
theorem State.transform_cursor (hc : cur < sl.keySize) :
    (s.transform sl cur combine).2.toNat = (cur.toNat + s.argBufSize.toNat) % sl.keySize.toNat := by
  have h1 : ¬ sl.keySize ≤ cur := BitVec.not_le.2 hc
  simp only [State.transform, if_neg h1]
  exact transformLoop_cursor _ _ _ _ hc

end transform

section reset

theorem State.nctx_resetWith (p : Params) : (State.resetWith p).nctx = p.nctx := by
  simp [State.nctx, State.resetWith]

/-- Reset keeps memory, the parameters and the model's own fields, and puts every other field at its reset value
(R38, R260). -/
theorem State.assertReset_eq (s : State) :
    s.assertReset =
      { State.resetWith { nctx := s.nctx, litEncCursorSrc := s.litEncCursorSrc } with
        mem := s.mem, pending := s.pending, replies := s.replies, freeSeq := s.freeSeq } := rfl

@[simp] theorem State.assertReset_mem (s : State) : s.assertReset.mem = s.mem := rfl

@[simp] theorem State.assertReset_base (s : State) : s.assertReset.base = Table.ident := rfl

@[simp] theorem State.assertReset_ctx (s : State) : s.assertReset.ctx = List.replicate s.nctx Slot.destroyed := rfl

@[simp] theorem State.assertReset_nctx (s : State) : s.assertReset.nctx = s.nctx := by simp [State.nctx]

end reset

end Sys2Proof.Machine
end

