-- ==== Sys2Proof/Laws/Meanings.lean ====
section
/-! SUPPORT. What each command can do, said once: its result in each of its cases, and the converse, that a next state
comes from one of them (40_context.md R120, R121; 41 R145; 42 R162; 43 R171 to R175; 44 R200). -/

namespace Sys2Proof.Machine

/-! ### `INIT`, `TEARDOWN`, `GEN` -/

section context

variable {c : Nat} {s t : State} {sl : Slot}

theorem execInit_absent (h : s.slot c = none) : execInit c s = .next (s.complete 2#4 false) := by
  simp [execInit, h, ErrKind.code]

theorem execInit_unbound (h : s.slot c = some sl) (hm : (s.boundSlot sl).malformed = true) :
    execInit c s = .next ((s.setSlot c Slot.destroyed).complete 2#4 false) := by
  simp [execInit, h, hm, ErrKind.code]

theorem execInit_binds (h : s.slot c = some sl) (hm : (s.boundSlot sl).malformed = false) :
    execInit c s = .next ((s.setSlot c (s.regenerate (s.boundSlot sl))).complete 0#4 false) := by
  simp [execInit, h, hm]

theorem execInit_cases (h : execInit c s = .next t) :
    (s.slot c = none ∧ t = s.complete 2#4 false) ∨
    ∃ old, s.slot c = some old ∧
      ((s.boundSlot old).malformed = true ∧ t = (s.setSlot c Slot.destroyed).complete 2#4 false ∨
       (s.boundSlot old).malformed = false ∧
         t = (s.setSlot c (s.regenerate (s.boundSlot old))).complete 0#4 false) := by
  cases hs : s.slot c with
  | none => rw [execInit_absent hs] at h; cases h; exact .inl ⟨rfl, rfl⟩
  | some old =>
    cases hm : (s.boundSlot old).malformed with
    | true => rw [execInit_unbound hs hm] at h; cases h; exact .inr ⟨old, rfl, .inl ⟨hm, rfl⟩⟩
    | false => rw [execInit_binds hs hm] at h; cases h; exact .inr ⟨old, rfl, .inr ⟨hm, rfl⟩⟩

theorem execTeardown_absent (h : s.slot c = none) : execTeardown c s = .next (s.complete 2#4 false) := by
  simp [execTeardown, h, ErrKind.code]

theorem execTeardown_destroys (h : s.slot c = some sl) :
    execTeardown c s = .next ((s.setSlot c Slot.destroyed).complete 0#4 false) := by
  simp [execTeardown, h]

theorem execTeardown_cases (h : execTeardown c s = .next t) :
    (s.slot c = none ∧ t = s.complete 2#4 false) ∨
    ∃ old, s.slot c = some old ∧ t = (s.setSlot c Slot.destroyed).complete 0#4 false := by
  cases hs : s.slot c with
  | none => rw [execTeardown_absent hs] at h; cases h; exact .inl ⟨rfl, rfl⟩
  | some old => rw [execTeardown_destroys hs] at h; cases h; exact .inr ⟨old, rfl, rfl⟩

theorem execGen_absent (h : s.slot c = none) : execGen c s = .next (s.complete 2#4 false) := by
  simp [execGen, h, ErrKind.code]

theorem execGen_malformed (h : s.slot c = some sl) (hm : sl.malformed = true) :
    execGen c s = .next (s.complete 2#4 false) := by
  simp [execGen, h, hm, ErrKind.code]

theorem execGen_regenerates (h : s.slot c = some sl) (hm : sl.malformed = false) :
    execGen c s = .next ((s.setSlot c (s.regenerate sl)).complete 0#4 false) := by
  simp [execGen, h, hm]

theorem execGen_cases (h : execGen c s = .next t) :
    t = s.complete 2#4 false ∨
    ∃ sl, s.slot c = some sl ∧ sl.malformed = false ∧ t = (s.setSlot c (s.regenerate sl)).complete 0#4 false := by
  cases hs : s.slot c with
  | none => rw [execGen_absent hs] at h; cases h; exact .inl rfl
  | some sl =>
    cases hm : sl.malformed with
    | true => rw [execGen_malformed hs hm] at h; cases h; exact .inl rfl
    | false => rw [execGen_regenerates hs hm] at h; cases h; exact .inr ⟨sl, rfl, hm, rfl⟩

end context

/-! ### `VALIDATE` -/

section validate

variable {c : Nat} {s t : State} {sl : Slot}

theorem execValidate_absent (h : s.slot c = none) : execValidate c s = .next (s.complete 2#4 false) := by
  simp [execValidate, State.validate_absent h, ErrKind.code]

theorem execValidate_malformed (h : s.slot c = some sl) (hm : sl.malformed = true) :
    execValidate c s = .next (s.complete 2#4 false) := by
  simp [execValidate, State.validate_malformed h hm, ErrKind.code]

theorem execValidate_verdict (h : s.slot c = some sl) (hm : sl.malformed = false) :
    execValidate c s = .next (s.scratchCleared.complete 0#4
      (decide ((s.derive sl).1 = sl.fwd ∧ (s.derive sl).2 = sl.inv))) := by
  rw [execValidate, State.validate_verdict h hm]; rfl

theorem execValidate_cases (h : execValidate c s = .next t) :
    t = s.complete 2#4 false ∨ ∃ verdict, t = s.scratchCleared.complete 0#4 verdict := by
  cases hs : s.slot c with
  | none => rw [execValidate_absent hs] at h; cases h; exact .inl rfl
  | some sl =>
    cases hm : sl.malformed with
    | true => rw [execValidate_malformed hs hm] at h; cases h; exact .inl rfl
    | false => rw [execValidate_verdict hs hm] at h; cases h; exact .inr ⟨_, rfl⟩

end validate

/-! ### `ENC`, `DEC` -/

section transform

variable {c : Nat} {s t : State} {sl : Slot}

/-- The prologue's answer in each of its cases, in the order of R171. -/
theorem transformPrologue_eq (c : Nat) (s : State) :
    transformPrologue c s =
      match s.slot c with
      | none => .ends (s.complete 2#4 false)
      | some sl =>
        if s.argBufPtr = nullPtr then .ends (s.complete 1#4 false)
        else if sl.malformed then .ends (s.complete 2#4 false)
        else if sl.keySize = 0#32 ∨ s.argBufSize = 0#32 then .ends (s.complete 0#4 false)
        else if (s.derive sl).1 = sl.fwd ∧ (s.derive sl).2 = sl.inv then .runs sl s.scratchCleared
        else .ends (s.scratchCleared.complete 2#4 false) := by
  unfold transformPrologue
  cases hs : s.slot c with
  | none => rfl
  | some sl =>
    cases hm : sl.malformed with
    | true => simp [hm, ErrKind.code]
    | false =>
      simp only [State.validate_verdict hs hm, hm]
      by_cases hv : (s.derive sl).1 = sl.fwd ∧ (s.derive sl).2 = sl.inv <;> simp [hv, ErrKind.code]

/-- The loop runs exactly on a present, well-formed slot with a key, with a present, non-empty buffer, and with tables that
are what `derive` gives now; the scratch tables are then clear (R171). -/
theorem transformPrologue_runs_iff {s' : State} :
    transformPrologue c s = .runs sl s' ↔
      s.slot c = some sl ∧ s.argBufPtr ≠ nullPtr ∧ sl.malformed = false ∧ sl.keySize ≠ 0#32 ∧ s.argBufSize ≠ 0#32 ∧
        ((s.derive sl).1 = sl.fwd ∧ (s.derive sl).2 = sl.inv) ∧ s' = s.scratchCleared := by
  rw [transformPrologue_eq]
  cases hs : s.slot c with
  | none => simp
  | some sl' =>
    simp only [Option.some.injEq]
    split
    · simp_all
    · split
      · constructor
        · intro h; cases h
        · rintro ⟨rfl, -, h, -⟩; simp_all
      · split
        · constructor
          · intro h; cases h
          · rintro ⟨rfl, -, -, h₁, h₂, -⟩; simp_all
        · split
          · constructor
            · intro h; cases h; simp_all
            · rintro ⟨rfl, -, -, -, -, -, rfl⟩; rfl
          · constructor
            · intro h; cases h
            · rintro ⟨rfl, -, -, -, -, h, -⟩; contradiction

/-- When the prologue ends the command, only `STATUS` (and, after the validator ran, the scratch) is written: an error, the
success of an empty key or buffer (R172), or tables found invalid (R171). -/
theorem transformPrologue_ends {s' : State} (h : transformPrologue c s = .ends s') :
    (∃ err, err ≠ 0#4 ∧ err ≤ 5#4 ∧ s' = s.complete err false) ∨ s' = s.complete 0#4 false ∨
      s' = s.scratchCleared.complete 2#4 false := by
  rw [transformPrologue_eq] at h
  repeat' split at h
  all_goals cases h
  · exact .inl ⟨2#4, by decide, by decide, rfl⟩
  · exact .inl ⟨1#4, by decide, by decide, rfl⟩
  · exact .inl ⟨2#4, by decide, by decide, rfl⟩
  · exact .inr (.inl rfl)
  · exact .inr (.inr rfl)

theorem execDec_runs {s' : State} (h : transformPrologue c s = .runs sl s') :
    execDec c s = .next (s'.runDec c sl) := by simp [execDec, h]

theorem execEnc_runs {s' : State} (h : transformPrologue c s = .runs sl s') (hl : s'.modeLit = false) :
    execEnc c s = .next (s'.runEnc c sl) := by simp [execEnc, h, hl]

theorem execEnc_runsLiteral {s' : State} (h : transformPrologue c s = .runs sl s') (hl : s'.modeLit = true) :
    execEnc c s = .next (s'.runEncLiteral c sl) := by simp [execEnc, h, hl]

theorem execDec_ends {s' : State} (h : transformPrologue c s = .ends s') : execDec c s = .next s' := by
  simp [execDec, h]

theorem execEnc_ends {s' : State} (h : transformPrologue c s = .ends s') : execEnc c s = .next s' := by
  simp [execEnc, h]

theorem execDec_cases (h : execDec c s = .next t) :
    transformPrologue c s = .ends t ∨ ∃ sl s', transformPrologue c s = .runs sl s' ∧ t = s'.runDec c sl := by
  cases hp : transformPrologue c s with
  | ends s' => rw [execDec_ends hp] at h; cases h; exact .inl rfl
  | runs sl s' => rw [execDec_runs hp] at h; cases h; exact .inr ⟨sl, s', rfl, rfl⟩

theorem execEnc_cases (h : execEnc c s = .next t) :
    transformPrologue c s = .ends t ∨
    ∃ sl s', transformPrologue c s = .runs sl s' ∧
      (s'.modeLit = false ∧ t = s'.runEnc c sl ∨ s'.modeLit = true ∧ t = s'.runEncLiteral c sl) := by
  cases hp : transformPrologue c s with
  | ends s' => rw [execEnc_ends hp] at h; cases h; exact .inl rfl
  | runs sl s' =>
    refine .inr ⟨sl, s', rfl, ?_⟩
    cases hl : s'.modeLit with
    | false => rw [execEnc_runs hp hl] at h; cases h; exact .inl ⟨rfl, rfl⟩
    | true => rw [execEnc_runsLiteral hp hl] at h; cases h; exact .inr ⟨rfl, rfl⟩

theorem State.runDec_eq (s : State) (c : Nat) (sl : Slot) :
    s.runDec c sl = ({ s with mem := (s.transform sl sl.decCur sl.decByte).1 }.setSlot c
      { sl with decCur := (s.transform sl sl.decCur sl.decByte).2 }).complete 0#4 false := rfl

theorem State.runEnc_eq (s : State) (c : Nat) (sl : Slot) :
    s.runEnc c sl = ({ s with mem := (s.transform sl sl.encCur sl.encByte).1 }.setSlot c
      { sl with encCur := (s.transform sl sl.encCur sl.encByte).2 }).complete 0#4 false := rfl

theorem State.runEncLiteral_eq (s : State) (c : Nat) (sl : Slot) :
    s.runEncLiteral c sl =
      ({ s with mem := (s.transform sl (sl.literalStart s.litEncCursorSrc) sl.encByteLiteral).1 }.setSlot c
        { sl with decCur := (s.transform sl (sl.literalStart s.litEncCursorSrc) sl.encByteLiteral).2 }).complete
          0#4 false := rfl

end transform

/-! ### `LDBASE` -/

section ldbase

variable {s t : State}

theorem execLdbase_notFound (h : s.argSrcPtr = nullPtr) : execLdbase s = .next (s.complete 3#4 false) := by
  simp [execLdbase, h, ErrKind.code]

theorem execLdbase_io (h : s.argSrcPtr ≠ nullPtr) (hl : s.argSrcLen < 256#32) :
    execLdbase s = .next (s.complete 4#4 false) := by
  simp [execLdbase, h, hl, ErrKind.code]

theorem execLdbase_replaces (h : s.argSrcPtr ≠ nullPtr) (hl : ¬ s.argSrcLen < 256#32) :
    execLdbase s = .next ({ s with base := s.mem.tableAt s.argSrcPtr }.complete 0#4 false) := by
  simp only [execLdbase, h, hl]; rfl

theorem execLdbase_cases (h : execLdbase s = .next t) :
    (∃ err, err ≠ 0#4 ∧ err ≤ 5#4 ∧ t = s.complete err false) ∨
    s.argSrcPtr ≠ nullPtr ∧ ¬ s.argSrcLen < 256#32 ∧
      t = { s with base := s.mem.tableAt s.argSrcPtr }.complete 0#4 false := by
  by_cases hn : s.argSrcPtr = nullPtr
  · rw [execLdbase_notFound hn] at h; cases h; exact .inl ⟨3#4, by decide, by decide, rfl⟩
  · by_cases hl : s.argSrcLen < 256#32
    · rw [execLdbase_io hn hl] at h; cases h; exact .inl ⟨4#4, by decide, by decide, rfl⟩
    · rw [execLdbase_replaces hn hl] at h; cases h; exact .inr ⟨hn, hl, rfl⟩

end ldbase

end Sys2Proof.Machine
end

