-- ==== Sys2Proof/Laws/HostPort.lean ====
section
/-! SUPPORT. What each host transaction and each step can do, said once (45_register_access.md R210 to R212). -/

namespace Sys2Proof.Machine

section transact

variable (s : State)

theorem transact_read (i : RegIndex) :
    transact (.read i) s = .next { s with replies := s.replies ++ [.word (s.readReg (Reg.ofIndex i))] } := rfl

theorem transact_load (a : Word) :
    transact (.load a) s = .next { s with replies := s.replies ++ [.byte (s.mem.read a)] } := rfl

theorem transact_store (a : Word) (b : Byte) : transact (.store a b) s = .next { s with mem := s.mem.write a b } := rfl

theorem transact_reset : transact .reset s = .next s.assertReset := rfl

theorem transact_cmd (v : Word) : transact (.write 0#6 v) s = commandWrite v s := rfl

theorem transact_write {i : RegIndex} (h : i ≠ 0#6) (v : Word) :
    transact (.write i v) s = .next (s.writeReg (Reg.ofIndex i) v) := by
  have hne : Reg.ofIndex i ≠ .cmd := fun e => h ((Reg.ofIndex_eq_cmd i).1 e)
  cases hr : Reg.ofIndex i <;> simp_all [transact]

theorem commandWrite_legal {v : Word} {i : Instr} (h : decode v = .ok i) : commandWrite v s = exec i s := by
  simp [commandWrite, h]

theorem commandWrite_illegal {v : Word} {why : Reject} (h : decode v = .error why) :
    commandWrite v s = .next (s.complete 5#4 false) := by simp [commandWrite, h]

end transact

section step

variable {s t : State}

theorem step_idle (h : s.pending = []) : step s = .next s := by simp [step, nextTransaction, h]

theorem step_pending {op : HostOp} {rest : List HostOp} (h : s.pending = op :: rest) :
    step s = transact op { s with pending := rest } := by simp [step, nextTransaction, h]

/-- All that a step can do: nothing when nothing is pending; else one transaction: a read, a load, a store, a reset, an
illegal or a legal command, a write of another register. -/
theorem step_cases (h : step s = .next t) :
    (s.pending = [] ∧ t = s) ∨
    ∃ op rest s₀, s.pending = op :: rest ∧ s₀ = { s with pending := rest } ∧
      ((∃ i, op = .read i ∧ t = { s₀ with replies := s₀.replies ++ [.word (s₀.readReg (Reg.ofIndex i))] }) ∨
       (∃ a, op = .load a ∧ t = { s₀ with replies := s₀.replies ++ [.byte (s₀.mem.read a)] }) ∨
       (∃ a b, op = .store a b ∧ t = { s₀ with mem := s₀.mem.write a b }) ∨
       (op = .reset ∧ t = s₀.assertReset) ∨
       (∃ w why, op = .write 0#6 w ∧ decode w = .error why ∧ t = s₀.complete 5#4 false) ∨
       (∃ w i, op = .write 0#6 w ∧ decode w = .ok i ∧ exec i s₀ = .next t) ∨
       (∃ i v, op = .write i v ∧ i ≠ 0#6 ∧ t = s₀.writeReg (Reg.ofIndex i) v)) := by
  cases hp : s.pending with
  | nil => rw [step_idle hp] at h; cases h; exact .inl ⟨rfl, rfl⟩
  | cons op rest =>
    refine .inr ⟨op, rest, _, rfl, rfl, ?_⟩
    rw [step_pending hp] at h
    cases op with
    | read i => cases h; exact .inl ⟨i, rfl, rfl⟩
    | load a => cases h; exact .inr (.inl ⟨a, rfl, rfl⟩)
    | store a b => cases h; exact .inr (.inr (.inl ⟨a, b, rfl, rfl⟩))
    | reset => cases h; exact .inr (.inr (.inr (.inl ⟨rfl, rfl⟩)))
    | write i v =>
      refine .inr (.inr (.inr (.inr ?_)))
      by_cases hi : i = 0#6
      · subst hi
        rw [transact_cmd] at h
        cases hd : decode v with
        | error why => rw [commandWrite_illegal _ hd] at h; cases h; exact .inl ⟨v, why, rfl, hd, rfl⟩
        | ok ins => rw [commandWrite_legal _ hd] at h; exact .inr (.inl ⟨v, ins, rfl, hd, h⟩)
      · rw [transact_write _ hi] at h; cases h; exact .inr (.inr ⟨i, v, rfl, hi, rfl⟩)

end step

section window

variable (s : State) (f : Slot → Slot)

theorem State.updateWinSlot_some {sl : Slot} (h : s.slot s.winCtx.toNat = some sl) :
    s.updateWinSlot f = s.setSlot s.winCtx.toNat (f sl) := by simp [State.updateWinSlot, State.winSlot, h]

theorem State.updateWinSlot_none (h : s.slot s.winCtx.toNat = none) : s.updateWinSlot f = s := by
  simp [State.updateWinSlot, State.winSlot, h]

/-- A window write changes the shown slot, or nothing (R32, R34). -/
theorem State.updateWinSlot_cases :
    s.updateWinSlot f = s ∨ ∃ sl, s.slot s.winCtx.toNat = some sl ∧ s.updateWinSlot f = s.setSlot s.winCtx.toNat (f sl) := by
  cases h : s.slot s.winCtx.toNat with
  | none => exact .inl (s.updateWinSlot_none f h)
  | some sl => exact .inr ⟨sl, rfl, s.updateWinSlot_some f h⟩

/-- A write of `WIN_TDATA` changes one entry of the selected table of the shown slot, or nothing (R34). -/
theorem State.writeWinData_cases (b : Byte) :
    s.writeWinData b = s ∨ ∃ sl, s.slot s.winCtx.toNat = some sl ∧
      ((s.winSel = 0#3 ∧ s.writeWinData b = s.setSlot s.winCtx.toNat { sl with fwd := sl.fwd.put s.winIdx b }) ∨
       (s.winSel = 1#3 ∧ s.writeWinData b = s.setSlot s.winCtx.toNat { sl with inv := sl.inv.put s.winIdx b })) := by
  unfold State.writeWinData
  split
  · next h =>
    rcases s.updateWinSlot_cases fun sl => { sl with fwd := sl.fwd.put s.winIdx b } with h' | ⟨sl, hs, h'⟩
    · exact .inl h'
    · exact .inr ⟨sl, hs, .inl ⟨BitVec.eq_of_toNat_eq (by simpa using h), h'⟩⟩
  · next h =>
    rcases s.updateWinSlot_cases fun sl => { sl with inv := sl.inv.put s.winIdx b } with h' | ⟨sl, hs, h'⟩
    · exact .inl h'
    · exact .inr ⟨sl, hs, .inr ⟨BitVec.eq_of_toNat_eq (by simpa using h), h'⟩⟩
  · exact .inl rfl

/-- All that a register write other than `CMD` can do: it writes one host register, or one field of the shown slot, or
nothing (R211). -/
theorem State.writeReg_cases (r : Reg) (v : Word) :
    s.writeReg r v = s ∨
    (r = .mode ∧ s.writeReg r v = { s with modeLit := v.getLsbD 0 }) ∨
    (r = .argKeyPtr ∧ s.writeReg r v = { s with argKeyPtr := v }) ∨
    (r = .argKeySize ∧ s.writeReg r v = { s with argKeySize := v }) ∨
    (r = .argBufPtr ∧ s.writeReg r v = { s with argBufPtr := v }) ∨
    (r = .argBufSize ∧ s.writeReg r v = { s with argBufSize := v }) ∨
    (r = .argSrcPtr ∧ s.writeReg r v = { s with argSrcPtr := v }) ∨
    (r = .argSrcLen ∧ s.writeReg r v = { s with argSrcLen := v }) ∨
    (r = .winCtx ∧ s.writeReg r v = { s with winCtx := v.extractLsb' 0 4 }) ∨
    (r = .winTaddr ∧ s.writeReg r v = { s with winTaddr := v.extractLsb' 0 11 }) ∨
    ∃ sl sl', s.slot s.winCtx.toNat = some sl ∧ s.writeReg r v = s.setSlot s.winCtx.toNat sl' ∧
      ((r = .winKeyPtr ∧ sl' = { sl with keyPtr := v }) ∨ (r = .winKeySize ∧ sl' = { sl with keySize := v }) ∨
       (r = .winTdata ∧ s.winSel = 0#3 ∧ sl' = { sl with fwd := sl.fwd.put s.winIdx (v.extractLsb' 0 8) }) ∨
       (r = .winTdata ∧ s.winSel = 1#3 ∧ sl' = { sl with inv := sl.inv.put s.winIdx (v.extractLsb' 0 8) })) := by
  cases r
  case winKeyPtr =>
    rcases s.updateWinSlot_cases fun sl => { sl with keyPtr := v } with h | ⟨sl, hs, h⟩
    · exact .inl h
    · simp only [State.writeReg]; right; simp [hs, h]
  case winKeySize =>
    rcases s.updateWinSlot_cases fun sl => { sl with keySize := v } with h | ⟨sl, hs, h⟩
    · exact .inl h
    · simp only [State.writeReg]; right; simp [hs, h]
  case winTdata =>
    rcases s.writeWinData_cases (v.extractLsb' 0 8) with h | ⟨sl, hs, ⟨hw, h⟩ | ⟨hw, h⟩⟩
    · exact .inl h
    · simp only [State.writeReg]; right; simp [hs, h, hw]
    · simp only [State.writeReg]; right; simp [hs, h, hw]
  all_goals first
    | exact .inl rfl
    | (right; simp [State.writeReg])

end window

end Sys2Proof.Machine
end

