-- ==== Sys2Proof/Laws/Frames.lean ====
section
/-! SUPPORT. The frames of Safety.lean through the state updates, and the transforms' loop in the terms of the claims
(10_state.md R40; 43_transform.md R171). -/

namespace Sys2Proof.Machine

/-- What the host reads in `STATUS` after a command (R29). -/
theorem State.status_complete (s : State) (err : BitVec 4) (result : Bool) :
    (s.complete err result).readReg .status = 0#23 ++ BitVec.ofBool result ++ 0#4 ++ err := rfl

theorem State.status_succeeded (s : State) : (s.complete 0#4 false).readReg .status = 0#32 := by
  rw [State.status_complete]; decide

theorem State.status_valid (s : State) : (s.complete 0#4 true).readReg .status = 0x100#32 := by
  rw [State.status_complete]; decide

theorem State.status_invalidArgument (s : State) : (s.complete 2#4 false).readReg .status = 2#32 := by
  rw [State.status_complete]; decide

theorem State.withStatus_eq (s : State) (err : BitVec 4) (result : Bool) :
    s.withStatus err result = s.complete err result := rfl

theorem State.RegistersKept.refl (s : State) : s.RegistersKept s := by constructor <;> rfl

theorem State.RegistersKept.complete {s t : State} (h : s.RegistersKept t) (err : BitVec 4) (result : Bool) :
    s.RegistersKept (t.complete err result) := by
  obtain ⟨⟩ := h; constructor <;> assumption

theorem State.RegistersKept.setSlot {s t : State} (h : s.RegistersKept t) (c : Nat) (sl : Slot) :
    s.RegistersKept (t.setSlot c sl) := by
  obtain ⟨⟩ := h; constructor <;> first | assumption | (rw [State.nctx_setSlot]; assumption)

theorem State.RegistersKept.memory {s t : State} (h : s.RegistersKept t) (m : Memory) :
    s.RegistersKept { t with mem := m } := by
  obtain ⟨⟩ := h; constructor <;> assumption

theorem State.RegistersKept.scratch (s : State) : s.RegistersKept s.scratchCleared := by constructor <;> rfl

/-- Writing slot `c` and the flags keeps all the rest. -/
theorem State.KeptButSlot.setSlot_complete (s : State) (c : Nat) (sl : Slot) (err : BitVec 4) (result : Bool) :
    s.KeptButSlot c ((s.setSlot c sl).complete err result) where
  base := rfl
  sfwd := rfl
  sinv := rfl
  otherSlots d hd := by simp [hd]
  registers := ((State.RegistersKept.refl s).setSlot c sl).complete err result
  memory _ := rfl

/-- The slot `INIT` binds is malformed exactly when the operand registers declare a key size with no key (R120). -/
theorem State.boundSlot_malformed (s : State) (sl : Slot) :
    (s.boundSlot sl).malformed = true ↔ 0#32 < s.argKeySize ∧ s.argKeyPtr = nullPtr := Slot.malformed_iff _

theorem Slot.not_malformed_iff (sl : Slot) : sl.malformed = false ↔ ¬(0#32 < sl.keySize ∧ sl.keyPtr = nullPtr) := by
  rw [← Bool.not_eq_true, Slot.malformed_iff]

/-- Reaching the loop is what the prologue's last case says (R171). -/
theorem State.LoopReached.runs {s : State} {c : Nat} {sl : Slot} (h : s.LoopReached c sl) :
    transformPrologue c s = .runs sl s.scratchCleared := by
  obtain ⟨hs, hb, hk, hks, hbs, hv⟩ := h
  have pos : ∀ {x : Word}, 0#32 < x → x ≠ 0#32 := fun hx e => by simp [e] at hx
  exact transformPrologue_runs_iff.2
    ⟨hs, hb, sl.not_malformed_iff.2 fun e => hk e.2, pos hks, pos hbs, ⟨hv.1.symm, hv.2.symm⟩, rfl⟩

/-- All that a command can do: end with an error and nothing else changed; destroy or regenerate its slot; give a verdict;
end in a no-op or with invalid tables; run its loop; replace `BASE`. -/
theorem exec_cases {i : Instr} {s t : State} (h : exec i s = .next t) :
    (∃ err, err ≠ 0#4 ∧ err ≤ 5#4 ∧ t = s.complete err false) ∨
    (∃ c, i = .init c ∧ c < s.nctx ∧ t = (s.setSlot c Slot.destroyed).complete 2#4 false) ∨
    (∃ c old, i = .init c ∧ s.slot c = some old ∧ (s.boundSlot old).malformed = false ∧
      t = (s.setSlot c (s.regenerate (s.boundSlot old))).complete 0#4 false) ∨
    (∃ c, i = .teardown c ∧ c < s.nctx ∧ t = (s.setSlot c Slot.destroyed).complete 0#4 false) ∨
    (∃ c sl, i = .gen c ∧ s.slot c = some sl ∧ sl.malformed = false ∧
      t = (s.setSlot c (s.regenerate sl)).complete 0#4 false) ∨
    (∃ c verdict, i = .validate c ∧ t = s.scratchCleared.complete 0#4 verdict) ∨
    (∃ c, (i = .enc c ∨ i = .dec c) ∧ (t = s.complete 0#4 false ∨ t = s.scratchCleared.complete 2#4 false)) ∨
    (∃ c sl, i = .enc c ∧ transformPrologue c s = .runs sl s.scratchCleared ∧ s.modeLit = false ∧
      t = s.scratchCleared.runEnc c sl) ∨
    (∃ c sl, i = .enc c ∧ transformPrologue c s = .runs sl s.scratchCleared ∧ s.modeLit = true ∧
      t = s.scratchCleared.runEncLiteral c sl) ∨
    (∃ c sl, i = .dec c ∧ transformPrologue c s = .runs sl s.scratchCleared ∧ t = s.scratchCleared.runDec c sl) ∨
    (i = .ldbase ∧ s.argSrcPtr ≠ nullPtr ∧ ¬ s.argSrcLen < 256#32 ∧
      t = { s with base := s.mem.tableAt s.argSrcPtr }.complete 0#4 false) := by
  have invalid : (2#4 : BitVec 4) ≠ 0#4 ∧ (2#4 : BitVec 4) ≤ 5#4 := by decide
  have runs : ∀ {c sl s'}, transformPrologue c s = .runs sl s' → s' = s.scratchCleared := fun hp =>
    (transformPrologue_runs_iff.1 hp).2.2.2.2.2.2
  cases i with
  | init c =>
    rcases execInit_cases h with ⟨-, rfl⟩ | ⟨old, hs, ⟨-, rfl⟩ | ⟨hm, e⟩⟩
    · exact .inl ⟨2#4, invalid.1, invalid.2, rfl⟩
    · exact .inr (.inl ⟨c, rfl, State.slot_lt hs, rfl⟩)
    · exact .inr (.inr (.inl ⟨c, old, rfl, hs, hm, e⟩))
  | gen c =>
    rcases execGen_cases h with rfl | ⟨sl, hs, hm, e⟩
    · exact .inl ⟨2#4, invalid.1, invalid.2, rfl⟩
    · exact .inr (.inr (.inr (.inr (.inl ⟨c, sl, rfl, hs, hm, e⟩))))
  | validate c =>
    rcases execValidate_cases h with rfl | ⟨v, e⟩
    · exact .inl ⟨2#4, invalid.1, invalid.2, rfl⟩
    · exact .inr (.inr (.inr (.inr (.inr (.inl ⟨c, v, rfl, e⟩)))))
  | enc c =>
    rcases execEnc_cases h with h | ⟨sl, s', hp, h⟩
    · rcases transformPrologue_ends h with h | h
      · exact .inl h
      · exact .inr (.inr (.inr (.inr (.inr (.inr (.inl ⟨c, .inl rfl, h⟩))))))
    · obtain rfl := runs hp
      rcases h with ⟨hl, h⟩ | ⟨hl, h⟩
      · exact .inr (.inr (.inr (.inr (.inr (.inr (.inr (.inl ⟨c, sl, rfl, hp, hl, h⟩)))))))
      · exact .inr (.inr (.inr (.inr (.inr (.inr (.inr (.inr (.inl ⟨c, sl, rfl, hp, hl, h⟩))))))))
  | dec c =>
    rcases execDec_cases h with h | ⟨sl, s', hp, h⟩
    · rcases transformPrologue_ends h with h | h
      · exact .inl h
      · exact .inr (.inr (.inr (.inr (.inr (.inr (.inl ⟨c, .inr rfl, h⟩))))))
    · obtain rfl := runs hp
      exact .inr (.inr (.inr (.inr (.inr (.inr (.inr (.inr (.inr (.inl ⟨c, sl, rfl, hp, h⟩)))))))))
  | ldbase =>
    rcases execLdbase_cases h with h | h
    · exact .inl h
    · exact .inr (.inr (.inr (.inr (.inr (.inr (.inr (.inr (.inr (.inr ⟨rfl, h⟩)))))))))
  | teardown c =>
    rcases execTeardown_cases h with ⟨-, rfl⟩ | ⟨old, hs, e⟩
    · exact .inl ⟨2#4, invalid.1, invalid.2, rfl⟩
    · exact .inr (.inr (.inr (.inl ⟨c, rfl, State.slot_lt hs, e⟩)))

/-- No command writes a host register other than `STATUS`, a parameter, or the host's side (R40). -/
theorem exec_registersKept {i : Instr} {s t : State} (h : exec i s = .next t) : s.RegistersKept t := by
  have same := State.RegistersKept.refl s
  have scratch := State.RegistersKept.scratch s
  rcases exec_cases h with ⟨_, -, -, rfl⟩ | ⟨c, -, -, rfl⟩ | ⟨c, old, -, -, -, rfl⟩ | ⟨c, -, -, rfl⟩ |
    ⟨c, sl, -, -, -, rfl⟩ | ⟨c, v, -, rfl⟩ | ⟨c, -, rfl | rfl⟩ | ⟨c, sl, -, -, -, rfl⟩ | ⟨c, sl, -, -, -, rfl⟩ |
    ⟨c, sl, -, -, rfl⟩ | ⟨-, -, -, rfl⟩
  · exact same.complete _ _
  · exact (same.setSlot _ _).complete _ _
  · exact (same.setSlot _ _).complete _ _
  · exact (same.setSlot _ _).complete _ _
  · exact (same.setSlot _ _).complete _ _
  · exact scratch.complete _ _
  · exact same.complete _ _
  · exact scratch.complete _ _
  · exact ((scratch.memory _).setSlot _ _).complete _ _
  · exact ((scratch.memory _).setSlot _ _).complete _ _
  · exact ((scratch.memory _).setSlot _ _).complete _ _
  · constructor <;> rfl

end Sys2Proof.Machine
end

