-- ==== Sys2Proof/Laws/PerInstr.lean ====
section
/-! SUPPORT. For every command: its encoded word has the pattern of its own row of the opcode map under the row's mask
(30_encoding.md R92, R93). -/

namespace Sys2Proof.Laws

/-- The mnemonic of a command's row (R92). -/
def mnemonicOf : Instr → String
  | .init _ => "INIT"
  | .gen _ => "GEN"
  | .validate _ => "VALIDATE"
  | .enc _ => "ENC"
  | .dec _ => "DEC"
  | .ldbase => "LDBASE"
  | .teardown _ => "TEARDOWN"

/-- A word of format `C` (R91) has its opcode in bits 7:0 and zeros in bits 31:12. -/
theorem commandWord_masked (op : BitVec 8) (c : Nat) :
    commandWord op c &&& 0xFFFFF0FF#32 = op.setWidth 32 := by
  have h : ∀ (k : BitVec 4) (o : BitVec 8), ((0#20 ++ k ++ o : Word) &&& 0xFFFFF0FF#32) = o.setWidth 32 := by decide
  exact h _ _

/-- The command's word matches the row with its mnemonic. -/
def EncodesItsRow.Statement (i : Instr) : Prop :=
  ∃ r ∈ opcodeTable, r.mnemonic = mnemonicOf i ∧ encode i &&& r.mask = r.pattern

theorem EncodesItsRow.init (c : Nat) : EncodesItsRow.Statement (.init c) :=
  ⟨opcodeTable[0], by simp [opcodeTable], rfl, commandWord_masked _ c⟩

theorem EncodesItsRow.gen (c : Nat) : EncodesItsRow.Statement (.gen c) :=
  ⟨opcodeTable[1], by simp [opcodeTable], rfl, commandWord_masked _ c⟩

theorem EncodesItsRow.validate (c : Nat) : EncodesItsRow.Statement (.validate c) :=
  ⟨opcodeTable[2], by simp [opcodeTable], rfl, commandWord_masked _ c⟩

theorem EncodesItsRow.enc (c : Nat) : EncodesItsRow.Statement (.enc c) :=
  ⟨opcodeTable[3], by simp [opcodeTable], rfl, commandWord_masked _ c⟩

theorem EncodesItsRow.dec (c : Nat) : EncodesItsRow.Statement (.dec c) :=
  ⟨opcodeTable[4], by simp [opcodeTable], rfl, commandWord_masked _ c⟩

theorem EncodesItsRow.ldbase : EncodesItsRow.Statement .ldbase :=
  ⟨opcodeTable[5], by simp [opcodeTable], rfl, by decide⟩

theorem EncodesItsRow.teardown (c : Nat) : EncodesItsRow.Statement (.teardown c) :=
  ⟨opcodeTable[6], by simp [opcodeTable], rfl, commandWord_masked _ c⟩

end Sys2Proof.Laws
end

