-- ==== Sys2Proof/Tests/Slice0.lean ====
section
/-! SUPPORT. The model's own tests. Expected results are those of spec/95_test_vectors.md (E1 to E16, V1 to V84), named in
each test, or written out from the encoding (30_encoding.md R91, R92). The witnesses at the end show, for every statement
with hypotheses, a state and operands that meet them. -/

namespace Sys2Proof.Tests

open Sys2Proof Sys2Proof.Machine

/-! ### Well-formedness: an ill-formed term for each check (R91: `CTX` has four bits) -/

theorem test_wellFormed_init : (Instr.init 15).wellFormed = true ∧ (Instr.init 16).wellFormed = false := by decide
theorem test_wellFormed_gen : (Instr.gen 15).wellFormed = true ∧ (Instr.gen 16).wellFormed = false := by decide
theorem test_wellFormed_validate : (Instr.validate 15).wellFormed = true ∧ (Instr.validate 16).wellFormed = false := by
  decide
theorem test_wellFormed_enc : (Instr.enc 15).wellFormed = true ∧ (Instr.enc 16).wellFormed = false := by decide
theorem test_wellFormed_dec : (Instr.dec 15).wellFormed = true ∧ (Instr.dec 16).wellFormed = false := by decide
theorem test_wellFormed_teardown : (Instr.teardown 15).wellFormed = true ∧ (Instr.teardown 16).wellFormed = false := by
  decide

/-! ### Decoding: words written out from R91 and R92 -/

theorem test_decode_init : decode 0b00000000000000000000_0000_00000001#32 = .ok (.init 0) := by decide
theorem test_decode_gen : decode 0b00000000000000000000_0010_00000010#32 = .ok (.gen 2) := by decide
theorem test_decode_validate : decode 0b00000000000000000000_0100_00000011#32 = .ok (.validate 4) := by decide
theorem test_decode_enc : decode 0b00000000000000000000_1000_00000100#32 = .ok (.enc 8) := by decide
theorem test_decode_dec : decode 0b00000000000000000000_0001_00000101#32 = .ok (.dec 1) := by decide
theorem test_decode_ldbase : decode 0b00000000000000000000_0000_00000110#32 = .ok .ldbase := by decide
theorem test_decode_teardown : decode 0b00000000000000000000_1111_00000111#32 = .ok (.teardown 15) := by decide

/-- E8 to E13. -/
theorem test_decode_illegal :
    decode 0x00000000#32 = .error .unknownOpcode ∧ decode 0x00000008#32 = .error .unknownOpcode ∧
    decode 0x000000FF#32 = .error .unknownOpcode ∧ decode 0x00001001#32 = .error .reservedBits ∧
    decode 0x80000004#32 = .error .reservedBits ∧ decode 0x00000106#32 = .error .ldbaseContext := by decide

theorem test_decodeTableWord :
    decodeTableWord 32 0x00000F07 = some (.teardown 15) ∧ decodeTableWord 32 0x00000106 = none := by decide

/-! ### Helpers -/

/-- The state a step answers, if it answers one. -/
def after (o : Host.Outcome State Fault Refusal) : Option State :=
  match o with
  | .next s => some s
  | _ => none

/-- `STATUS` after running the command word `w` first after reset. -/
def statusAfterReset (w : Nat) : Option Word := (after (step (State.reset.withFetchWord 32 w))).map fun s => s.readReg .status

/-- `mem[a] := bytes`. -/
def put (a : Word) (bytes : List Byte) (m : Memory) : Memory :=
  bytes.zipIdx.foldl (fun m bj => m.write (elemAddr a bj.2) bj.1) m

/-- A slot bound to `n` key bytes at 0x1000, tables not derived. -/
def bound (n : Word) : Slot := { Slot.destroyed with keyPtr := 0x1000#32, keySize := n }

/-- Slot 0 holds `sl` with the tables its key gives now; the buffer registers name `n` bytes at `p`. -/
def live (m : Memory) (sl : Slot) (p n : Word) : State :=
  let s := { State.reset with mem := m, argBufPtr := p, argBufSize := n }
  s.setSlot 0 (s.regenerate sl)

/-- The slot that `live` puts in place. -/
def liveSlot (m : Memory) (sl : Slot) : Slot := { State.reset with mem := m }.regenerate sl

theorem live_slot (m : Memory) (sl : Slot) (p n : Word) : (live m sl p n).slot 0 = some (liveSlot m sl) := rfl

theorem live_valid (m : Memory) (sl : Slot) (p n : Word) : (live m sl p n).tablesValid (liveSlot m sl) := ⟨rfl, rfl⟩

theorem live_reached (m : Memory) (sl : Slot) (p n : Word) (hp : p ≠ nullPtr) (hk : sl.keyPtr ≠ nullPtr)
    (hks : 0#32 < sl.keySize) (hn : 0#32 < n) : (live m sl p n).LoopReached 0 (liveSlot m sl) :=
  ⟨rfl, hp, hk, hks, hn, live_valid m sl p n⟩

/-- The key `KEY` at 0x1000 (V12) and `HELLO` at 0x2000 (V40). -/
def helloMem : Memory := put 0x2000#32 [0x48#8, 0x45#8, 0x4C#8, 0x4C#8, 0x4F#8] (put 0x1000#32 [0x4B#8, 0x45#8, 0x59#8] [])

/-- The state of V40. -/
def hello : State := live helloMem (bound 3#32) 0x2000#32 5#32

/-- Its slot 0. -/
def helloSlot : Slot := liveSlot helloMem (bound 3#32)

theorem hello_reached : hello.LoopReached 0 helloSlot :=
  live_reached helloMem (bound 3#32) 0x2000#32 5#32 (by decide) (by decide) (by decide) (by decide)

/-! ### One step from reset (E1 to E16) -/

theorem test_reset_init : statusAfterReset 0x00000001 = some 0#32 := by decide
theorem test_reset_gen : statusAfterReset 0x00000002 = some 0#32 := by decide
theorem test_reset_validate : statusAfterReset 0x00000003 = some 0#32 := by decide +kernel
theorem test_reset_enc : statusAfterReset 0x00000004 = some 1#32 := by decide
theorem test_reset_dec : statusAfterReset 0x00000005 = some 1#32 := by decide
theorem test_reset_ldbase : statusAfterReset 0x00000006 = some 3#32 := by decide
theorem test_reset_teardown : statusAfterReset 0x00000007 = some 0#32 := by decide

/-- E8 to E13. -/
theorem test_reset_illegal :
    ∀ w ∈ [0x00000000, 0x00000008, 0x000000FF, 0x00001001, 0x80000004, 0x00000106], statusAfterReset w = some 5#32 := by
  decide

/-- E14 to E16. -/
theorem test_reset_absent : ∀ w ∈ [0x00000101, 0x00000F07, 0x00000104], statusAfterReset w = some 2#32 := by decide

/-! ### The table generator -/

/-- V3, V4, V8: the edges of the key byte. -/
theorem test_forward_edges :
    [0#8, 1#8, 254#8, 255#8].map (Table.ident.forward [0#8]).entry = [0#8, 2#8, 255#8, 1#8] ∧
    [0#8, 1#8, 2#8, 255#8].map (Table.ident.forward [1#8]).entry = [0#8, 1#8, 3#8, 2#8] ∧
    [0#8, 1#8, 254#8, 255#8].map (Table.ident.forward [255#8]).entry = [254#8, 0#8, 253#8, 255#8] := by decide +kernel

/-- V12. -/
theorem test_forward_KEY :
    [0#8, 1#8, 2#8, 69#8, 70#8, 75#8, 89#8, 253#8, 254#8, 255#8].map
      (Table.ident.forward [0x4B#8, 0x45#8, 0x59#8]).entry =
      [90#8, 67#8, 74#8, 66#8, 68#8, 75#8, 91#8, 76#8, 69#8, 92#8] := by decide +kernel

/-- V4 and conflict C1: `INV[255]` is 254. -/
theorem test_invert :
    [1#8, 2#8, 3#8, 255#8].map ((Table.ident.forward [1#8]).invert Table.zero).entry = [1#8, 255#8, 2#8, 254#8] := by
  decide +kernel

/-! ### The commands, one step each -/

/-- V64: an empty key. -/
theorem test_init_empty :
    (after (exec (.init 0) { State.reset with argKeyPtr := 0x1000#32 })).map
      (fun s => (s.readReg .status, s.readReg .winKeyPtr, s.readReg .winKeySize, s.readReg .winTdata)) =
      some (0#32, 0x1000#32, 0#32, 0#32) := by decide

/-- V60: a key size with no key. -/
theorem test_init_unbound :
    (after (exec (.init 0) { State.reset with argKeySize := 3#32 })).map
      (fun s => (s.readReg .status, s.readReg .winKeySize)) = some (2#32, 0#32) := by decide

/-- V25: the key byte is now 2, and `GEN` gives the tables of V5. -/
theorem test_gen :
    (after (exec (.gen 0) ({ State.reset with mem := put 0x1000#32 [2#8] [], winTaddr := 0x0FF#11 }.setSlot 0 (bound 1#32)))).map
      (fun s => (s.readReg .status, s.readReg .winTdata)) = some (0#32, 3#32) := by decide +kernel

/-- V21: the tables `INIT` derived are valid. -/
theorem test_validate_valid :
    ∃ t, exec (.validate 0) hello = .next t ∧ t.readReg .status = 0x100#32 := by
  have hv := hello_reached.valid
  refine ⟨_, execValidate_verdict hello_reached.slot (by decide), ?_⟩
  rw [decide_eq_true ⟨hv.1.symm, hv.2.symm⟩]
  exact State.status_valid _

/-- V26: the key pointer is gone. -/
theorem test_validate_malformed :
    (after (exec (.validate 0) (hello.setSlot 0 { helloSlot with keyPtr := 0#32 }))).map (fun s => s.readReg .status) =
      some 2#32 := by decide

theorem hello_runs : transformPrologue 0 hello = .runs helloSlot hello.scratchCleared := hello_reached.runs

/-- V40: `HELLO` under `KEY`. -/
theorem test_enc_hello :
    let t := hello.scratchCleared.runEnc 0 helloSlot
    execEnc 0 hello = .next t ∧ t.mem.bytesAt 0x2000#32 5 = [0x00#8, 0x5A#8, 0x12#8, 0x04#8, 0x07#8] ∧
      (t.readReg .status, t.readReg .winEncCur, t.readReg .winDecCur) = (0#32, 2#32, 0#32) :=
  ⟨execEnc_runs hello_runs (by rfl), by decide +kernel, by decide +kernel⟩

/-- The state of V45. -/
def helloLiteral : State := { hello with modeLit := true }

theorem helloLiteral_reached : helloLiteral.LoopReached 0 helloSlot := by
  obtain ⟨⟩ := hello_reached; constructor <;> assumption

theorem helloLiteral_runs : transformPrologue 0 helloLiteral = .runs helloSlot helloLiteral.scratchCleared :=
  helloLiteral_reached.runs

/-- V45: the same in the literal variant, which writes the other cursor. -/
theorem test_enc_literal :
    let t := helloLiteral.scratchCleared.runEncLiteral 0 helloSlot
    execEnc 0 helloLiteral = .next t ∧ t.mem.bytesAt 0x2000#32 5 = [0x06#8, 0x03#8, 0x18#8, 0x0A#8, 0x0D#8] ∧
      (t.readReg .status, t.readReg .winEncCur, t.readReg .winDecCur) = (0#32, 0#32, 2#32) :=
  ⟨execEnc_runsLiteral helloLiteral_runs (by rfl), by decide +kernel, by decide +kernel⟩

/-- V41's bytes at 0x2000, under `KEY`. -/
def cipher : State :=
  live (put 0x2000#32 [0x00#8, 0x5A#8, 0x12#8, 0x04#8, 0x07#8] helloMem) (bound 3#32) 0x2000#32 5#32

/-- Its slot 0. -/
def cipherSlot : Slot := liveSlot (put 0x2000#32 [0x00#8, 0x5A#8, 0x12#8, 0x04#8, 0x07#8] helloMem) (bound 3#32)

theorem cipher_runs : transformPrologue 0 cipher = .runs cipherSlot cipher.scratchCleared :=
  (live_reached _ (bound 3#32) 0x2000#32 5#32 (by decide) (by decide) (by decide) (by decide)).runs

/-- V41. -/
theorem test_dec :
    let t := cipher.scratchCleared.runDec 0 cipherSlot
    execDec 0 cipher = .next t ∧ t.mem.bytesAt 0x2000#32 5 = [0x48#8, 0x45#8, 0x4C#8, 0x4C#8, 0x4F#8] ∧
      (t.readReg .status, t.readReg .winEncCur, t.readReg .winDecCur) = (0#32, 0#32, 2#32) :=
  ⟨execDec_runs cipher_runs, by decide +kernel, by decide +kernel⟩

/-- V81: `Fault` before the malformed slot. -/
theorem test_dec_fault :
    (after (exec (.dec 0) (State.reset.setSlot 0 { Slot.destroyed with keySize := 1#32 }))).map
      (fun s => s.readReg .status) = some 1#32 := by decide

/-- V33: `BASE[5]` is the byte at 0x3005. -/
theorem test_ldbase :
    (after (exec .ldbase { State.reset with mem := put 0x3005#32 [0xFA#8] [], argSrcPtr := 0x3000#32, argSrcLen := 256#32,
                                            winTaddr := 0x205#11 })).map
      (fun s => (s.readReg .status, s.readReg .winTdata)) = some (0#32, 0xFA#32) := by decide +kernel

/-- V31: one byte too few. -/
theorem test_ldbase_short :
    (after (exec .ldbase { State.reset with argSrcPtr := 0x3000#32, argSrcLen := 255#32 })).map
      (fun s => s.readReg .status) = some 4#32 := by decide

/-- V63. -/
theorem test_teardown :
    (after (exec (.teardown 0) hello)).map
      (fun s => (s.readReg .status, s.readReg .winKeyPtr, s.readReg .winKeySize, s.readReg .winTdata)) =
      some (0#32, 0#32, 0#32, 0#32) := by decide

/-! ### Register access (V70 to V79) and memory -/

theorem test_reads_of_constants :
    (State.reset.readReg (Reg.ofIndex 16#6) = 0x544D5043#32 ∧ State.reset.readReg (Reg.ofIndex 17#6) = 1#32) ∧
    State.reset.readReg (Reg.ofIndex 40#6) = 0#32 ∧ State.reset.readReg (Reg.ofIndex 0#6) = 0#32 := by decide

theorem test_implemented_bits :
    (State.reset.writeReg .mode 0xFFFFFFFF#32).readReg .mode = 1#32 ∧
    (State.reset.writeReg .winCtx 0xFFFFFFFF#32).readReg .winCtx = 0x0F#32 ∧
    (State.reset.writeReg .winTaddr 0xFFFFFFFF#32).readReg .winTaddr = 0x7FF#32 ∧
    (State.reset.writeReg .winTaddr 0xFFFFFFFF#32).readReg .winTdata = 0#32 := by decide

/-- V78: the window cannot write `BASE`. -/
theorem test_base_not_writable :
    (({ State.reset with winTaddr := 0x2FF#11 }).writeReg .winTdata 0#32).readReg .winTdata = 0xFF#32 := by
  decide +kernel

/-- Element addresses wrap (R69; V50). -/
theorem test_memory_wraps :
    let m := put 0xFFFFFFFF#32 [0x41#8, 0x44#8] []
    m = [(0, 0x44#8), (0xFFFFFFFF, 0x41#8)] ∧ m.bytesAt 0xFFFFFFFF#32 2 = [0x41#8, 0x44#8] := by decide

theorem test_memory_canonical : Memory.write [(5, 1#8), (7, 2#8)] 5#32 0#8 = [(7, 2#8)] ∧ Memory.wf State.reset.mem := by
  decide

/-! ### Witnesses: for each statement with hypotheses, a state and operands that meet them together, clause by clause -/

/-- `s` with one transaction pending. -/
def next (op : HostOp) (s : State) : State := { s with pending := [op] }

theorem ident_count : ∀ v : Byte, Table.ident.toList.count v = 1 := (Table.isPerm_iff_count _).1 Table.ident_isPerm

theorem witness_DecodeEncodeRoundTrip : (Instr.teardown 15).wellFormed = true ∧ Instr.ldbase.wellFormed = true := by decide

theorem witness_EncodeDecodeRoundTrip : decode 0x00000F07#32 = .ok (.teardown 15) := by decide

theorem witness_DecodingFollowsTheOpcodeMap :
    (∃ r ∈ opcodeTable, 0x00000F07#32 &&& r.mask = r.pattern) ∧
    ∀ r ∈ opcodeTable, 0x00000106#32 &&& r.mask ≠ r.pattern := by decide

theorem witness_IllegalWordsAreReportedAndChangeNothing :
    (next (.write 0#6 0x00000106#32) State.reset).pending = .write 0#6 0x00000106#32 :: [] ∧
    decode 0x00000106#32 = .error .ldbaseContext := by decide

theorem witness_StepRunsTheDecodedCommand :
    (next (.write 0#6 0x00000F07#32) State.reset).pending = .write 0#6 0x00000F07#32 :: [] ∧
    decode 0x00000F07#32 = .ok (.teardown 15) := by decide

theorem witness_IdleBlockChangesNothing : State.reset.pending = [] := rfl

/-- The window shows slot 0, which is present; and slot 15, which is absent. Table select 4, and 5. -/
theorem witness_RegisterReadsGiveTheRegister :
    let s := next (.read 15#6) hello
    let u := next (.read 15#6) { hello with winCtx := 15#4, winTaddr := 0x1FF#11 }
    (s.pending = .read 15#6 :: [] ∧ s.slot s.winCtx.toNat = some helloSlot ∧ s.winTaddr.extractLsb' 8 3 = 0#3) ∧
    (u.pending = .read 15#6 :: [] ∧ u.nctx ≤ u.winCtx.toNat ∧ u.winTaddr.extractLsb' 8 3 ≤ 1#3) ∧
    ({ s with winTaddr := 0x4FF#11 } : State).winTaddr.extractLsb' 8 3 = 4#3 ∧
    5#3 ≤ ({ s with winTaddr := 0x500#11 } : State).winTaddr.extractLsb' 8 3 ∧
    (next (.read 18#6) s).pending = .read 18#6 :: [] ∧ 18#6 ≤ 18#6 :=
  ⟨⟨rfl, hello_reached.slot, by decide⟩, ⟨rfl, by decide, by decide⟩, by decide, by decide, rfl, by decide⟩

/-- The same for writes: a legal and an illegal word, a present and an absent slot, table select 1, and 2. -/
theorem witness_RegisterWritesDoWhatTheRuleSays :
    let s := next (.write 15#6 7#32) { hello with winTaddr := 0x1FF#11 }
    let u := next (.write 10#6 7#32) { hello with winCtx := 1#4 }
    (s.pending = .write 15#6 7#32 :: [] ∧ s.slot s.winCtx.toNat = some helloSlot ∧ s.winTaddr.extractLsb' 8 3 = 1#3) ∧
    (u.pending = .write 10#6 7#32 :: [] ∧ u.nctx ≤ u.winCtx.toNat) ∧
    2#3 ≤ ({ s with winTaddr := 0x200#11 } : State).winTaddr.extractLsb' 8 3 ∧
    decode 0x00000006#32 = .ok .ldbase ∧ decode 0x00000008#32 = .error .unknownOpcode ∧
    (next (.write 16#6 7#32) s).pending = .write 16#6 7#32 :: [] ∧ 16#6 ≤ 16#6 :=
  ⟨⟨rfl, hello_reached.slot, by decide⟩, ⟨rfl, by decide⟩, by decide, by decide, by decide, rfl, by decide⟩

theorem witness_UnimplementedIndicesAndReservedBits :
    18#6 ≤ 18#6 ∧ (next (.read 18#6) State.reset).pending = .read 18#6 :: [] ∧
    (next (.write 63#6 7#32) State.reset).pending = .write 63#6 7#32 :: [] ∧ 18#6 ≤ 63#6 := by decide

theorem witness_PokedTableByteReadsBackAlone :
    let s : State := { hello with winTaddr := 0x1FF#11 }
    s.slot s.winCtx.toNat = some helloSlot ∧ s.winTaddr.extractLsb' 8 3 ≤ 1#3 :=
  ⟨hello_reached.slot, by decide⟩

theorem witness_HostLoadGivesTheByteLastStored :
    let s : State := { hello with pending := [.store 0xFFFFFFFF#32 0#8, .load 0x1000#32] }
    s.mem.wf ∧ s.pending = .store 0xFFFFFFFF#32 0#8 :: .load 0x1000#32 :: [] := ⟨by decide, rfl⟩

/-- Between the edges, for the last clause. -/
theorem witness_KeyByteStepsRotateTheTable : 0#8 < 1#8 ∧ 1#8 < 255#8 ∧ 0#8 < 254#8 ∧ 254#8 < 255#8 := by decide

theorem witness_KeyBytesKeepPermutations : ∀ v : Byte, Table.ident.toList.count v = 1 := ident_count

theorem witness_DerivedTablesAreInverse :
    ∃ F I, hello.base.isPerm = true ∧ hello.derive helloSlot = (F, I) := ⟨_, _, Table.ident_isPerm, Prod.mk.eta.symm⟩

/-- The same key bytes at 0x1000 and at 0x2000. -/
theorem witness_SameKeyAndBaseGiveSameTables :
    let s : State := { State.reset with mem := put 0x1000#32 [7#8] [] }
    let t : State := { State.reset with mem := put 0x2000#32 [7#8] [], freeSeq := 9 }
    s.base.isPerm = true ∧ t.base = s.base ∧ ({ bound 1#32 with keyPtr := 0x2000#32 } : Slot).keySize = (bound 1#32).keySize ∧
      ∀ j < (bound 1#32).keySize.toNat, t.keyByte { bound 1#32 with keyPtr := 0x2000#32 } j = s.keyByte (bound 1#32) j :=
  ⟨Table.ident_isPerm, rfl, rfl, by decide⟩

theorem witness_EmptyKeyGivesBaseAndItsInverse : State.reset.base.isPerm = true ∧ (bound 0#32).keySize = 0#32 :=
  ⟨Table.ident_isPerm, rfl⟩

theorem witness_AbsentContextIsInvalidArgument : ctxOf (.enc 1) = some 1 ∧ State.reset.nctx ≤ 1 := by decide

/-- A key declared with none bound; a key bound; an empty key with none bound. -/
theorem witness_InitBindsTheKeyAndDerivesTables :
    let s : State := { State.reset with argKeySize := 1#32 }
    let u : State := { State.reset with argKeySize := 1#32, argKeyPtr := 1#32 }
    State.reset.nctx ≤ 1 ∧ (0 < s.nctx ∧ 0#32 < s.argKeySize ∧ s.argKeyPtr = nullPtr) ∧
      (0 < u.nctx ∧ ¬(0#32 < u.argKeySize ∧ u.argKeyPtr = nullPtr)) ∧
      (0 < State.reset.nctx ∧ ¬(0#32 < State.reset.argKeySize ∧ State.reset.argKeyPtr = nullPtr)) ∧
      u.base.isPerm = true := ⟨by decide, by decide, by decide, by decide, Table.ident_isPerm⟩

theorem witness_TeardownDestroysTheSlot : State.reset.nctx ≤ 1 ∧ 0 < State.reset.nctx := by decide

/-- For `GEN` and `VALIDATE`: an absent slot, a malformed one, a well-formed one. -/
theorem witness_GenRegeneratesTheTables :
    let sl : Slot := { Slot.destroyed with keySize := 1#32 }
    hello.nctx ≤ 1 ∧ ((hello.setSlot 0 sl).slot 0 = some sl ∧ 0#32 < sl.keySize ∧ sl.keyPtr = nullPtr) ∧
      (hello.slot 0 = some helloSlot ∧ ¬(0#32 < helloSlot.keySize ∧ helloSlot.keyPtr = nullPtr)) ∧
      hello.base.isPerm = true :=
  ⟨by decide, ⟨rfl, by decide⟩, ⟨hello_reached.slot, by decide⟩, Table.ident_isPerm⟩

/-- Both verdicts occur, with a permutation as `BASE`: the tables derived from the key, and the zero tables of a destroyed slot. -/
theorem witness_ValidateReportsTheVerdict :
    hello.base.isPerm = true ∧ State.reset.base.isPerm = true ∧
    (hello.slot 0 = some helloSlot ∧ helloSlot.fwd = (hello.derive helloSlot).1 ∧ helloSlot.inv = (hello.derive helloSlot).2) ∧
    (State.reset.slot 0 = some Slot.destroyed ∧
      ¬(Slot.destroyed.fwd = (State.reset.derive Slot.destroyed).1 ∧
        Slot.destroyed.inv = (State.reset.derive Slot.destroyed).2)) := by
  refine ⟨Table.ident_isPerm, Table.ident_isPerm, ⟨hello_reached.slot, hello_reached.valid.1, hello_reached.valid.2⟩, rfl, fun h => ?_⟩
  have := congrArg (fun T => Table.entry T 1#8) h.1
  exact absurd this (by decide)

theorem witness_ValidRightAfterInitOrGen :
    let t := (hello.setSlot 0 (hello.regenerate (hello.boundSlot helloSlot))).complete 0#4 false
    let u := (hello.setSlot 0 (hello.regenerate helloSlot)).complete 0#4 false
    hello.base.isPerm = true ∧ (execInit 0 hello = .next t ∧ t.statusErr = 0#4) ∧
      execGen 0 hello = .next u ∧ u.statusErr = 0#4 :=
  ⟨Table.ident_isPerm, ⟨execInit_binds hello_reached.slot (by decide), State.complete_statusErr ..⟩,
    execGen_regenerates hello_reached.slot (by decide), State.complete_statusErr ..⟩

/-- `FWD[0]` is 90; the byte written is 0. -/
theorem witness_OneCorruptedByteIsDetected :
    hello.base.isPerm = true ∧ hello.slot hello.winCtx.toNat = some helloSlot ∧ helloSlot.malformed = false ∧
      hello.tablesValid helloSlot ∧ hello.winTaddr.extractLsb' 8 3 ≤ 1#3 ∧ (hello.readReg .winTdata).toNat ≠ (0x100#32).toNat % 256 :=
  ⟨Table.ident_isPerm, hello_reached.slot, by decide, hello_reached.valid, by decide, by decide +kernel⟩

theorem witness_LdbaseReplacesTheBaseTable :
    let s : State := { State.reset with argSrcPtr := 1#32, argSrcLen := 255#32 }
    let u : State := { State.reset with argSrcPtr := 1#32, argSrcLen := 256#32 }
    State.reset.argSrcPtr = nullPtr ∧ (s.argSrcPtr ≠ nullPtr ∧ s.argSrcLen < 256#32) ∧
      u.argSrcPtr ≠ nullPtr ∧ 256#32 ≤ u.argSrcLen := by decide

/-- A slot with a key and zero tables, which are no tables of any key. -/
def corrupt : State := { hello with ctx := [bound 3#32] }

theorem corrupt_invalid : ¬ corrupt.tablesValid (bound 3#32) := fun h => by
  have := congrArg (fun T => Table.entry T 0x4B#8) h.1
  exact absurd this (by decide +kernel)

theorem hello_promised : hello.LoopPromised helloSlot helloSlot.encCur := ⟨Table.ident_isPerm, by decide, by decide⟩

/-- Each check of the prologue fails somewhere, and all pass somewhere. -/
theorem witness_TransformChecksInOrder :
    let malformed : Slot := { Slot.destroyed with keySize := 1#32 }
    hello.nctx ≤ 1 ∧ (State.reset.slot 0 = some Slot.destroyed ∧ State.reset.argBufPtr = nullPtr) ∧
      ((hello.setSlot 0 malformed).slot 0 = some malformed ∧ hello.argBufPtr ≠ nullPtr ∧ 0#32 < malformed.keySize ∧
        malformed.keyPtr = nullPtr) ∧
      ({ State.reset with argBufPtr := 1#32 }.slot 0 = some Slot.destroyed ∧ Slot.destroyed.keySize = 0#32) ∧
      (corrupt.slot 0 = some (bound 3#32) ∧ 0#32 < (bound 3#32).keySize ∧ 0#32 < corrupt.argBufSize ∧
        corrupt.base.isPerm = true ∧ ¬ corrupt.tablesValid (bound 3#32)) ∧
      (hello.slot 0 = some helloSlot ∧ 0#32 < helloSlot.keySize ∧ 0#32 < hello.argBufSize ∧ hello.tablesValid helloSlot ∧
        hello.LoopPromised helloSlot (hello.startCursor (.enc 0) helloSlot) ∧
        hello.LoopPromised helloSlot (hello.startCursor (.dec 0) helloSlot)) :=
  ⟨by decide, ⟨rfl, rfl⟩, ⟨rfl, by decide, by decide, rfl⟩, ⟨rfl, rfl⟩,
    ⟨rfl, by decide, by decide, Table.ident_isPerm, corrupt_invalid⟩,
    hello_reached.slot, by decide, by decide, hello_reached.valid, hello_promised, hello_promised⟩

/-- An empty key; an empty buffer. -/
theorem witness_EmptyKeyOrBufferIsANoOp :
    let s : State := { State.reset with argBufPtr := 1#32, argBufSize := 1#32 }
    let u : State := { hello with argBufSize := 0#32 }
    (s.slot 0 = some Slot.destroyed ∧ s.argBufPtr ≠ nullPtr ∧ Slot.destroyed.malformed = false ∧
      Slot.destroyed.keySize = 0#32) ∧
    (u.slot 0 = some helloSlot ∧ u.argBufPtr ≠ nullPtr ∧ helloSlot.malformed = false ∧ u.argBufSize = 0#32) :=
  ⟨⟨rfl, by decide, by decide, rfl⟩, hello_reached.slot, by decide, by decide, rfl⟩

theorem witness_DecDecryptsTheBuffer :
    hello.mem.wf ∧ hello.LoopReached 0 helloSlot ∧ hello.LoopPromised helloSlot helloSlot.decCur :=
  ⟨by decide, hello_reached, hello_promised⟩

theorem witness_EncEncryptsTheBuffer :
    hello.mem.wf ∧ hello.modeLit = false ∧ hello.LoopReached 0 helloSlot ∧ hello.LoopPromised helloSlot helloSlot.encCur :=
  ⟨by decide, rfl, hello_reached, hello_promised⟩

theorem witness_LiteralEncUsesInvAndWritesDecCur :
    helloLiteral.mem.wf ∧ helloLiteral.modeLit = true ∧ helloLiteral.LoopReached 0 helloSlot ∧
      helloSlot.encCur = (if helloLiteral.litEncCursorSrc = .enc then helloSlot.encCur else helloSlot.decCur) ∧
      helloLiteral.LoopPromised helloSlot helloSlot.encCur :=
  ⟨by decide, rfl, helloLiteral_reached, rfl, Table.ident_isPerm, by decide, by decide⟩

/-- The literal `ENC` that starts from `dec_cur` (`P_LIT_ENC_CURSOR_SRC = DEC`), the cursors 0 and 2. -/
def literalDec : State :=
  { live helloMem { bound 3#32 with decCur := 2#32 } 0x2000#32 5#32 with modeLit := true, litEncCursorSrc := .dec }

/-- Its slot 0. -/
def literalDecSlot : Slot := liveSlot helloMem { bound 3#32 with decCur := 2#32 }

theorem literalDec_reached : literalDec.LoopReached 0 literalDecSlot := by
  obtain ⟨⟩ := live_reached helloMem { bound 3#32 with decCur := 2#32 } 0x2000#32 5#32 (by decide) (by decide) (by decide)
    (by decide)
  constructor <;> assumption

theorem witness_LiteralEncUsesInvAndWritesDecCur_fromDec :
    literalDec.mem.wf ∧ literalDec.modeLit = true ∧ literalDec.LoopReached 0 literalDecSlot ∧
      2#32 = (if literalDec.litEncCursorSrc = .enc then literalDecSlot.encCur else literalDecSlot.decCur) ∧
      literalDec.LoopPromised literalDecSlot 2#32 :=
  ⟨by decide, rfl, literalDec_reached, rfl, Table.ident_isPerm, by decide, by decide⟩

/-- As `live`, with `B` as `BASE`. -/
def liveOn (B : Table) (m : Memory) (sl : Slot) (p n : Word) : State :=
  let s := { State.reset with base := B, mem := m, argBufPtr := p, argBufSize := n }
  s.setSlot 0 (s.regenerate sl)

/-- The slot that `liveOn` puts in place. -/
def liveOnSlot (B : Table) (m : Memory) (sl : Slot) : Slot := { State.reset with base := B, mem := m }.regenerate sl

theorem liveOn_slot (B : Table) (m : Memory) (sl : Slot) (p n : Word) :
    (liveOn B m sl p n).slot 0 = some (liveOnSlot B m sl) := rfl

theorem liveOn_valid (B : Table) (m : Memory) (sl : Slot) (p n : Word) :
    (liveOn B m sl p n).tablesValid (liveOnSlot B m sl) := ⟨rfl, rfl⟩

/-- `KEY` bound while `BASE` is all zeros, which is no permutation. -/
def flat : State := liveOn Table.zero helloMem (bound 3#32) 0x2000#32 5#32

/-- Its slot 0, with the tables `derive` gives there. -/
def flatSlot : Slot := liveOnSlot Table.zero helloMem (bound 3#32)

theorem flat_slot : flat.slot 0 = some flatSlot := liveOn_slot ..

theorem flat_valid : flat.tablesValid flatSlot := liveOn_valid ..

/-- The same with the identity as the slot's forward table, which is not what `derive` gives from a `BASE` of zeros. -/
def flatStale : State := { flat with ctx := [{ bound 3#32 with fwd := Table.ident }] }

theorem flatStale_invalid : ¬ flatStale.tablesValid { bound 3#32 with fwd := Table.ident } := fun h => by
  have := congrArg (fun T => Table.entry T 1#8) h.1
  exact absurd this (by decide +kernel)

/-- No permutation; a key for `INIT` (the empty one), a well-formed slot with valid tables, one with other tables. -/
theorem witness_TableCommandsRunOnWithoutAPermutation :
    flat.base.isPerm = false ∧ flat.slot 0 = some flatSlot ∧ ¬(0#32 < flat.argKeySize ∧ flat.argKeyPtr = nullPtr) ∧
      ¬(0#32 < flatSlot.keySize ∧ flatSlot.keyPtr = nullPtr) ∧ flat.tablesValid flatSlot ∧
      flatStale.base.isPerm = false ∧ flatStale.slot 0 = some { bound 3#32 with fwd := Table.ident } ∧
      ¬ flatStale.tablesValid { bound 3#32 with fwd := Table.ident } :=
  ⟨Table.zero_not_isPerm, flat_slot, by decide, by decide, flat_valid, Table.zero_not_isPerm, rfl, flatStale_invalid⟩

theorem witness_TransformsRunOnWithoutAPermutation :
    (flat.mem.wf ∧ flat.base.isPerm = false ∧ flat.slot 0 = some flatSlot ∧ flat.argBufPtr ≠ nullPtr ∧
      flatSlot.keyPtr ≠ nullPtr ∧ 0#32 < flatSlot.keySize ∧ 0#32 < flat.argBufSize) ∧
    (flat.tablesValid flatSlot ∧ flat.startCursor (.enc 0) flatSlot < flatSlot.keySize ∧
      ∀ n < flat.argBufSize.toNat, ∀ j < flatSlot.keySize.toNat,
        elemAddr flat.argBufPtr n ≠ elemAddr flatSlot.keyPtr j) ∧
    flatStale.mem.wf ∧ flatStale.base.isPerm = false ∧ ¬ flatStale.tablesValid { bound 3#32 with fwd := Table.ident } :=
  ⟨⟨by decide, Table.zero_not_isPerm, flat_slot, by decide, by decide, by decide, by decide⟩,
    ⟨flat_valid, by decide, by decide⟩, by decide, Table.zero_not_isPerm, flatStale_invalid⟩

/-- The buffer lies over the key. -/
theorem witness_TransformsWriteBufferAndOneCursor :
    let s := live helloMem (bound 3#32) 0x1000#32 3#32
    s.mem.wf ∧ s.LoopReached 0 helloSlot :=
  ⟨by decide, live_reached helloMem (bound 3#32) 0x1000#32 3#32 (by decide) (by decide) (by decide) (by decide)⟩

theorem witness_EncryptionAndDecryptionUndoEachOther :
    hello.mem.wf ∧ hello.base.isPerm = true ∧ hello.modeLit = false ∧ hello.slot 0 = some helloSlot ∧
      hello.argBufPtr ≠ nullPtr ∧ helloSlot.malformed = false ∧ hello.tablesValid helloSlot ∧
      helloSlot.encCur = helloSlot.decCur ∧
      (0#32 < helloSlot.keySize → 0#32 < hello.argBufSize → hello.LoopPromised helloSlot helloSlot.encCur) ∧
      ∃ t, exec (.init 0) hello = .next t ∧ t.statusErr = 0#4 :=
  ⟨by decide, Table.ident_isPerm, rfl, hello_reached.slot, by decide, by decide, hello_reached.valid, rfl,
    fun _ _ => hello_promised, _,
    show execInit 0 hello = _ from execInit_binds hello_reached.slot (by decide), State.complete_statusErr ..⟩

theorem witness_ChunkedTransformEqualsOneTransform :
    hello.mem.wf ∧ hello.base.isPerm = true ∧ hello.modeLit = false ∧ (2#32).toNat + (3#32).toNat < 2 ^ 32 ∧
      hello.argBufSize = 2#32 + 3#32 ∧ hello.argBufPtr + 2#32 ≠ nullPtr ∧ hello.LoopReached 0 helloSlot ∧
      hello.LoopPromised helloSlot helloSlot.encCur :=
  ⟨by decide, Table.ident_isPerm, rfl, by decide, by decide, by decide, hello_reached, hello_promised⟩

theorem witness_CommandsKeepCursorsInsideTheKey :
    ∃ t, (∀ c sl, hello.slot c = some sl → sl.cursorsInKey) ∧ exec (.gen 0) hello = .next t := by
  refine ⟨_, fun c sl h => ?_, show execGen 0 hello = _ from execGen_regenerates hello_reached.slot (by decide)⟩
  have hc : c < 1 := State.slot_lt h
  obtain rfl : c = 0 := by omega
  obtain rfl : helloSlot = sl := Option.some.inj (hello_reached.slot.symm.trans h)
  exact fun _ => by decide

/-- A command completes, and slot 1 is not its own (or it has none). For the statements about every command that completes. -/
theorem witness_CommandsIgnoreTheWindow_OnlyEncReadsMode_SlotsAreIndependent :
    ∃ t, exec (.dec 0) hello = .next t ∧ (∀ c, Instr.dec 0 ≠ .enc c) ∧ ctxOf (.dec 0) ≠ some 1 ∧ ctxOf .ldbase ≠ some 1 :=
  have h : execDec 0 hello = .next _ := execDec_runs hello_runs
  ⟨_, h, nofun, by decide, by decide⟩

theorem witness_FailedCommandsChangeOnlyStatus :
    ∃ t u, State.reset.sfwd = Table.zero ∧ State.reset.sinv = Table.zero ∧
      (exec (.gen 1) State.reset = .next t ∧ t.statusErr ≠ 0#4) ∧
      exec (.init 0) { State.reset with argKeySize := 1#32 } = .next u ∧ u.statusErr ≠ 0#4 :=
  ⟨_, _, rfl, rfl, ⟨rfl, by decide⟩, rfl, by decide⟩

/-- A successful `LDBASE` of zeros. -/
theorem witness_BaseTableWriters :
    ∃ t, step (next (.write 0#6 0x00000006#32) { State.reset with argSrcPtr := 1#32, argSrcLen := 256#32 }) = .next t ∧
      t.base ≠ Table.ident :=
  ⟨_, rfl, fun h => absurd (congrArg (fun T => Table.entry T 1#8) h) (by decide +kernel)⟩

/-- Window writes of both fields of the key binding. -/
theorem witness_KeyBindingWriters :
    ∃ t u, (step (next (.write 10#6 5#32) State.reset) = .next t ∧
        (t.slot 0).map Slot.keyPtr ≠ (State.reset.slot 0).map Slot.keyPtr) ∧
      step (next (.write 11#6 5#32) State.reset) = .next u ∧
        (u.slot 0).map Slot.keySize ≠ (State.reset.slot 0).map Slot.keySize :=
  ⟨_, _, ⟨rfl, by decide⟩, rfl, by decide⟩

/-- A window write of `FWD[0]`, and of `INV[0]`. -/
theorem witness_SlotTableWriters :
    ∃ t u, (step (next (.write 15#6 5#32) State.reset) = .next t ∧
        (t.slot 0).map Slot.fwd ≠ (State.reset.slot 0).map Slot.fwd) ∧
      step (next (.write 15#6 5#32) { State.reset with winTaddr := 0x100#11 }) = .next u ∧
        (u.slot 0).map Slot.inv ≠ (State.reset.slot 0).map Slot.inv :=
  ⟨_, _, ⟨rfl, fun h => absurd (congrArg (Option.map fun T => Table.entry T 0#8) h) (by decide)⟩, rfl,
    fun h => absurd (congrArg (Option.map fun T => Table.entry T 0#8) h) (by decide)⟩

/-- `TEARDOWN` of a slot whose cursors have moved. -/
theorem witness_CursorWriters :
    let s := State.reset.setSlot 0 { Slot.destroyed with encCur := 1#32, decCur := 1#32 }
    ∃ t, step (next (.write 0#6 0x00000007#32) s) = .next t ∧ (t.slot 0).map Slot.encCur ≠ (s.slot 0).map Slot.encCur ∧
      (t.slot 0).map Slot.decCur ≠ (s.slot 0).map Slot.decCur :=
  ⟨_, rfl, by decide, by decide⟩

theorem witness_HostRegisterWriters :
    ∃ t u, (step (next (.write 0#6 0#32) State.reset) = .next t ∧ t.readReg .status ≠ State.reset.readReg .status) ∧
      step (next (.write 14#6 0x7FF#32) State.reset) = .next u ∧ u.readReg .winTaddr ≠ State.reset.readReg .winTaddr :=
  ⟨_, _, ⟨rfl, by decide⟩, rfl, by decide⟩

theorem witness_MemoryWriters :
    ∃ t, State.reset.mem.wf ∧ step (next (.store 0xFFFFFFFF#32 7#8) State.reset) = .next t ∧
      t.mem.read 0xFFFFFFFF#32 ≠ State.reset.mem.read 0xFFFFFFFF#32 := ⟨_, by decide, rfl, by decide⟩

theorem witness_ResetGivesTheResetValues : (next .reset hello).pending = .reset :: [] ∧ 0 < hello.nctx := by decide

/-- A machine with a key bound, tables derived, and an encryption waiting. -/
theorem witness_EveryStepKeepsTheInvariant :
    (next (.write 0#6 0x00000004#32) hello).Inv ∧ ∃ t, step (next (.write 0#6 0x00000002#32) hello) = .next t :=
  ⟨{ memCanonical := by decide, slotCount := by decide, scratchFwd := rfl, scratchInv := rfl, errCode := by decide,
     resultOnSuccess := by decide }, _, rfl⟩

end Sys2Proof.Tests
end

section
/-! SUPPORT. Facts about the decoder and the register indices that the statements about steps use (10_state.md R26;
30_encoding.md R91, R92). -/

namespace Sys2Proof

/-- The only word that encodes `LDBASE` (R92). -/
theorem eq_of_decode_ldbase {w : Word} (h : decode w = .ok .ldbase) : w = 0x00000006#32 := by
  have whole : w &&& 0xFFFFFFFF#32 = w := BitVec.and_allOnes
  rw [decode_eq_rows, whole] at h
  repeat' split at h
  all_goals first | assumption | cases h

/-- A legal word carries a slot number of four bits (R91). -/
theorem wellFormed_of_decode {w : Word} {i : Instr} (h : decode w = .ok i) : i.wellFormed = true := by
  have hc := ctxField_lt w
  rw [decode_eq_rows] at h
  repeat' split at h
  all_goals cases h <;> simp [Instr.wellFormed, hc]

/-- A register other than `unimplemented` has one index (R26). -/
theorem Reg.ofIndex_eq_iff {r : Reg} (hr : r ≠ .unimplemented) (i : RegIndex) : Reg.ofIndex i = r ↔ i = r.index := by
  refine ⟨fun h => ?_, fun h => h ▸ Reg.ofIndex_index r⟩
  rcases Reg.index_ofIndex i with ⟨hu, -⟩ | hi
  · exact absurd (h.symm.trans hu) hr
  · rw [← h, hi]

theorem Reg.ofIndex_unimplemented : ∀ i : RegIndex, 18#6 ≤ i → Reg.ofIndex i = .unimplemented := by decide

end Sys2Proof
end

section
/-! SUPPORT. What a step and a command can do, with a name for each case (45_register_access.md R210 to R212), and that each case
keeps the machine's invariant (10_state.md R25, R29; 60_exceptions.md R230). -/

namespace Sys2Proof.Machine

/-! ### The transaction at the head of the queue -/

/-- The state once the host's next transaction has left the queue (log entry 6). -/
def State.dequeued (s : State) : State := { s with pending := s.pending.tail }

/-- The cases of a step, `s` to `t`. An idle step, a register read and a load are one case: they touch the host's side alone. -/
inductive StepEffect (s : State) : State → Prop
  | quiet (replies : List Reply) : StepEffect s { s.dequeued with replies := replies }
  | store (a : Word) (b : Byte) (head : s.pending.head? = some (.store a b)) :
      StepEffect s { s.dequeued with mem := s.mem.write a b }
  | reset (head : s.pending.head? = some .reset) : StepEffect s s.dequeued.assertReset
  | illegal (w : Word) (why : Reject) (head : s.pending.head? = some (.write 0#6 w)) (illegal : decode w = .error why) :
      StepEffect s (s.dequeued.complete 5#4 false)
  | command {t : State} (w : Word) (i : Instr) (head : s.pending.head? = some (.write 0#6 w)) (legal : decode w = .ok i)
      (run : exec i s.dequeued = .next t) : StepEffect s t
  | register (i : RegIndex) (v : Word) (head : s.pending.head? = some (.write i v)) (notCmd : i ≠ 0#6) :
      StepEffect s (s.dequeued.writeReg (Reg.ofIndex i) v)

/-- Every step is one of these cases. -/
theorem step_effect {s t : State} (h : step s = .next t) : StepEffect s t := by
  rcases step_cases h with ⟨hp, rfl⟩ | ⟨op, rest, s₀, hp, rfl, h⟩
  · have idle : t.dequeued = t := by cases t; simp_all [State.dequeued]
    simpa [idle] using StepEffect.quiet (s := t) t.replies
  · have hq : { s with pending := rest } = s.dequeued := by simp [State.dequeued, hp]
    have head : s.pending.head? = some op := by simp [hp]
    rw [hq] at h
    rcases h with ⟨i, -, rfl⟩ | ⟨a, -, rfl⟩ | ⟨a, b, rfl, rfl⟩ | ⟨rfl, rfl⟩ | ⟨w, why, rfl, hd, rfl⟩ |
      ⟨w, i, rfl, hd, hx⟩ | ⟨i, v, rfl, hi, rfl⟩
    · exact .quiet _
    · exact .quiet _
    · exact .store a b head
    · exact .reset head
    · exact .illegal w why head hd
    · exact .command w i head hd hx
    · exact .register i v head hi

/-- The cases of a command: it fails with nothing else changed; it ends in a no-op or with invalid tables; it destroys or
regenerates its slot, gives a verdict, runs its loop, or replaces `BASE`. -/
inductive CommandEffect (s : State) : Instr → State → Prop
  | fails {i : Instr} (err : BitVec 4) (error : err ≠ 0#4) (code : err ≤ 5#4) : CommandEffect s i (s.complete err false)
  | initFails (c : Nat) (present : c < s.nctx) :
      CommandEffect s (.init c) ((s.setSlot c Slot.destroyed).complete 2#4 false)
  | initBinds (c : Nat) (old : Slot) (slot : s.slot c = some old) (bound : (s.boundSlot old).malformed = false) :
      CommandEffect s (.init c) ((s.setSlot c (s.regenerate (s.boundSlot old))).complete 0#4 false)
  | teardown (c : Nat) (present : c < s.nctx) :
      CommandEffect s (.teardown c) ((s.setSlot c Slot.destroyed).complete 0#4 false)
  | gen (c : Nat) (sl : Slot) (slot : s.slot c = some sl) (bound : sl.malformed = false) :
      CommandEffect s (.gen c) ((s.setSlot c (s.regenerate sl)).complete 0#4 false)
  | verdict (c : Nat) (verdict : Bool) : CommandEffect s (.validate c) (s.scratchCleared.complete 0#4 verdict)
  | noOp {i : Instr} (c : Nat) (transform : i = .enc c ∨ i = .dec c) : CommandEffect s i (s.complete 0#4 false)
  | invalid {i : Instr} (c : Nat) (transform : i = .enc c ∨ i = .dec c) :
      CommandEffect s i (s.scratchCleared.complete 2#4 false)
  | enc (c : Nat) (sl : Slot) (runs : transformPrologue c s = .runs sl s.scratchCleared) (lit : s.modeLit = false) :
      CommandEffect s (.enc c) (s.scratchCleared.runEnc c sl)
  | encLiteral (c : Nat) (sl : Slot) (runs : transformPrologue c s = .runs sl s.scratchCleared) (lit : s.modeLit = true) :
      CommandEffect s (.enc c) (s.scratchCleared.runEncLiteral c sl)
  | dec (c : Nat) (sl : Slot) (runs : transformPrologue c s = .runs sl s.scratchCleared) :
      CommandEffect s (.dec c) (s.scratchCleared.runDec c sl)
  | ldbase (present : s.argSrcPtr ≠ nullPtr) (long : ¬ s.argSrcLen < 256#32) :
      CommandEffect s .ldbase ({ s with base := s.mem.tableAt s.argSrcPtr }.complete 0#4 false)

/-- Every command is one of these cases. -/
theorem exec_effect {i : Instr} {s t : State} (h : exec i s = .next t) : CommandEffect s i t := by
  rcases exec_cases h with ⟨err, hne, he, rfl⟩ | ⟨c, rfl, hc, rfl⟩ | ⟨c, old, rfl, hs, hm, rfl⟩ | ⟨c, rfl, hc, rfl⟩ |
    ⟨c, sl, rfl, hs, hm, rfl⟩ | ⟨c, v, rfl, rfl⟩ | ⟨c, hi, rfl | rfl⟩ | ⟨c, sl, rfl, hp, hl, rfl⟩ |
    ⟨c, sl, rfl, hp, hl, rfl⟩ | ⟨c, sl, rfl, hp, rfl⟩ | ⟨rfl, hn, hl, rfl⟩
  · exact .fails err hne he
  · exact .initFails c hc
  · exact .initBinds c old hs hm
  · exact .teardown c hc
  · exact .gen c sl hs hm
  · exact .verdict c v
  · exact .noOp c hi
  · exact .invalid c hi
  · exact .enc c sl hp hl
  · exact .encLiteral c sl hp hl
  · exact .dec c sl hp
  · exact .ldbase hn hl

/-! ### What a write of a register other than `CMD` leaves unchanged -/

/-- No write of a register other than `CMD` changes these (R211). -/
structure State.PortFrame (s t : State) : Prop where
  base : t.base = s.base
  mem : t.mem = s.mem
  nctx : t.nctx = s.nctx
  sfwd : t.sfwd = s.sfwd
  sinv : t.sinv = s.sinv
  statusErr : t.statusErr = s.statusErr
  statusResult : t.statusResult = s.statusResult

theorem State.writeReg_frame (s : State) (r : Reg) (v : Word) : s.PortFrame (s.writeReg r v) := by
  rcases s.writeReg_cases r v with e | ⟨-, e⟩ | ⟨-, e⟩ | ⟨-, e⟩ | ⟨-, e⟩ | ⟨-, e⟩ | ⟨-, e⟩ | ⟨-, e⟩ | ⟨-, e⟩ | ⟨-, e⟩ |
    ⟨sl, sl', -, e, -⟩ <;> rw [e]
  on_goal 11 => exact ⟨rfl, rfl, s.nctx_setSlot _ _, rfl, rfl, rfl, rfl⟩
  all_goals exact ⟨rfl, rfl, rfl, rfl, rfl, rfl, rfl⟩

/-! ### The invariant through the state updates -/

namespace State.Inv

variable {s : State}

theorem portFrame (h : s.Inv) {t : State} (f : s.PortFrame t) : t.Inv where
  memCanonical := f.mem ▸ h.memCanonical
  slotCount := f.nctx ▸ h.slotCount
  scratchFwd := f.sfwd.trans h.scratchFwd
  scratchInv := f.sinv.trans h.scratchInv
  errCode := f.statusErr ▸ h.errCode
  resultOnSuccess hr := f.statusErr.trans (h.resultOnSuccess (f.statusResult ▸ hr))

theorem setSlot (h : s.Inv) (c : Nat) (sl : Slot) : (s.setSlot c sl).Inv :=
  h.portFrame ⟨rfl, rfl, s.nctx_setSlot c sl, rfl, rfl, rfl, rfl⟩

theorem writeMem (h : s.Inv) {m : Memory} (hm : m.wf) : { s with mem := m }.Inv :=
  { h with memCanonical := hm }

theorem writeBase (h : s.Inv) (B : Table) : { s with base := B }.Inv := { h with }

theorem dequeued (h : s.Inv) : s.dequeued.Inv := h.portFrame ⟨rfl, rfl, rfl, rfl, rfl, rfl, rfl⟩

theorem scratchCleared (h : s.Inv) : s.scratchCleared.Inv := by
  rwa [State.scratchCleared_self h.scratchFwd h.scratchInv]

/-- The end of a command keeps the invariant with a code of R230, and with a verdict only on success (R29). -/
theorem complete (h : s.Inv) {err : BitVec 4} {result : Bool} (he : err ≤ 5#4) (hr : result = true → err = 0#4) :
    (s.complete err result).Inv :=
  { h with errCode := he, resultOnSuccess := hr }

theorem fail (h : s.Inv) {err : BitVec 4} (he : err ≤ 5#4) : (s.complete err false).Inv := h.complete he nofun

theorem succeed (h : s.Inv) (verdict : Bool) : (s.complete 0#4 verdict).Inv := h.complete (by decide) fun _ => rfl

/-- The end of a transform: the buffer's bytes and one slot are written. -/
theorem transformed (h : s.Inv) (sl sl' : Slot) (cur : Word) (combine : Byte → Byte → Byte) (c : Nat) :
    (({ s with mem := (s.transform sl cur combine).1 }.setSlot c sl').complete 0#4 false).Inv :=
  ((h.writeMem (s.transform_wf sl cur combine h.memCanonical)).setSlot c sl').succeed false

theorem exec (h : s.Inv) {i : Instr} {t : State} (hx : exec i s = .next t) : t.Inv := by
  cases exec_effect hx with
  | fails err _ code => exact h.fail code
  | initFails c => exact (h.setSlot c _).fail (by decide)
  | initBinds c | teardown c | gen c => exact (h.setSlot c _).succeed false
  | verdict c v => exact h.scratchCleared.succeed v
  | noOp => exact h.succeed false
  | invalid => exact h.scratchCleared.fail (by decide)
  | enc c sl | encLiteral c sl | dec c sl => exact h.scratchCleared.transformed sl _ _ _ c
  | ldbase => exact (h.writeBase _).succeed false

/-- Right after reset the invariant holds for every legal value of the parameters (R38). -/
theorem resetWith {p : Params} (hp : p.legal) : (State.resetWith p).Inv where
  memCanonical := Memory.wf_nil
  slotCount := by rw [State.nctx_resetWith]; exact hp
  scratchFwd := rfl
  scratchInv := rfl
  errCode := (by decide : (0#4 : BitVec 4) ≤ 5#4)
  resultOnSuccess := nofun

/-- The reset transaction keeps memory and the number of slots (R260). -/
theorem assertReset (h : s.Inv) : s.assertReset.Inv :=
  { State.Inv.resetWith (p := { nctx := s.nctx, litEncCursorSrc := s.litEncCursorSrc }) h.slotCount with
    memCanonical := h.memCanonical }

end State.Inv

/-- Settles O51, by the cases of a step and, for a command, the cases of `exec`. -/
theorem everyStepKeepsTheInvariant : Obligations.EveryStepKeepsTheInvariant := by
  intro s t h hstep
  have hq := h.dequeued
  cases step_effect hstep with
  | quiet replies => exact hq.portFrame ⟨rfl, rfl, rfl, rfl, rfl, rfl, rfl⟩
  | store a b => exact hq.writeMem (Memory.wf_write h.memCanonical a b)
  | reset => exact hq.assertReset
  | illegal => exact hq.fail (by decide)
  | command w i _ _ run => exact hq.exec run
  | register i v => exact hq.portFrame (s.dequeued.writeReg_frame _ v)

/-- Settles O50: the suggested values are legal. -/
theorem invariantHoldsAfterReset : Obligations.InvariantHoldsAfterReset :=
  ⟨State.Inv.resetWith (by decide), fun _ hp => State.Inv.resetWith hp⟩

end Sys2Proof.Machine
end

section
/-! SUPPORT. Who writes what (10_state.md R40): what a step can do to a slot, to `BASE`, to memory and to the host registers. -/

namespace Sys2Proof.Machine

/-! ### A slot -/

/-- The loop of a transform ran over a key and a buffer that are not empty, and the command succeeded (R171, R172). -/
structure TransformRan (s t : State) (sl : Slot) : Prop where
  keyNonempty : 0#32 < sl.keySize
  bufferNonempty : 0#32 < s.argBufSize
  succeeded : t.statusErr = 0#4

theorem transformRan_of_runs {s s' t : State} {c : Nat} {sl : Slot} (h : transformPrologue c s = .runs sl s')
    (ht : t.statusErr = 0#4) : s.slot c = some sl ∧ TransformRan s t sl := by
  obtain ⟨hs, -, -, hk, hb, -⟩ := transformPrologue_runs_iff.1 h
  have pos : ∀ {x : Word}, x ≠ 0#32 → 0#32 < x := fun hx => by bv_omega
  exact ⟨hs, pos hk, pos hb, ht⟩

/-- How a command other than `INIT` and `TEARDOWN`, run on `s` with answer `t`, can change its slot `c`, which held `sl`. -/
inductive CommandUpdate (s t : State) (c : Nat) (sl : Slot) : Instr → Slot → Prop
  | gen (ok : t.statusErr = 0#4) : CommandUpdate s t c sl (.gen c) (s.regenerate sl)
  | enc (lit : s.modeLit = false) (ran : TransformRan s t sl) (cur : Word) :
      CommandUpdate s t c sl (.enc c) { sl with encCur := cur }
  | encLiteral (lit : s.modeLit = true) (ran : TransformRan s t sl) (cur : Word) :
      CommandUpdate s t c sl (.enc c) { sl with decCur := cur }
  | dec (ran : TransformRan s t sl) (cur : Word) : CommandUpdate s t c sl (.dec c) { sl with decCur := cur }

/-- A command writes no slot but its own (R123). -/
theorem exec_otherSlots {i : Instr} {s t : State} (h : exec i s = .next t) {c : Nat} (hc : ctxOf i ≠ some c) :
    t.slot c = s.slot c := by
  have other : ∀ {u : State} {d : Nat} {sl : Slot}, some d ≠ some c → (u.setSlot d sl).slot c = u.slot c :=
    fun hd => State.slot_setSlot_ne _ _ _ _ fun e => hd (congrArg some e.symm)
  cases exec_effect h with
  | fails | verdict | noOp | invalid | ldbase => rfl
  | initFails | initBinds | teardown | gen | enc | encLiteral | dec => exact other hc

/-- All that a command can do to slot `c`. -/
theorem exec_slot {i : Instr} {s t : State} (h : exec i s = .next t) (c : Nat) :
    t.slot c = s.slot c ∨ i = .init c ∨ i = .teardown c ∨
      ∃ sl sl', s.slot c = some sl ∧ t.slot c = some sl' ∧ CommandUpdate s t c sl i sl' := by
  by_cases hc : ctxOf i = some c
  case neg => exact .inl (exec_otherSlots h hc)
  have own : ∀ {u : State} {sl sl' : Slot}, u.slot c = some sl → (u.setSlot c sl').slot c = some sl' :=
    fun hs => State.slot_setSlot_self _ _ _ (State.slot_lt hs)
  cases exec_effect h with
  | fails | verdict | noOp | invalid => exact .inl rfl
  | initFails | initBinds => cases hc; exact .inr (.inl rfl)
  | teardown => cases hc; exact .inr (.inr (.inl rfl))
  | gen _ sl slot => cases hc; exact .inr (.inr (.inr ⟨sl, _, slot, own slot, .gen rfl⟩))
  | enc _ sl runs lit =>
    cases hc
    obtain ⟨slot, ran⟩ := transformRan_of_runs (t := s.scratchCleared.runEnc c sl) runs rfl
    exact .inr (.inr (.inr ⟨sl, _, slot, own slot, .enc lit ran _⟩))
  | encLiteral _ sl runs lit =>
    cases hc
    obtain ⟨slot, ran⟩ := transformRan_of_runs (t := s.scratchCleared.runEncLiteral c sl) runs rfl
    exact .inr (.inr (.inr ⟨sl, _, slot, own slot, .encLiteral lit ran _⟩))
  | dec _ sl runs =>
    cases hc
    obtain ⟨slot, ran⟩ := transformRan_of_runs (t := s.scratchCleared.runDec c sl) runs rfl
    exact .inr (.inr (.inr ⟨sl, _, slot, own slot, .dec ran _⟩))
  | ldbase => cases hc

/-- How a window write of register index `i` can change the slot the window shows, which held `sl` (R32, R34). -/
inductive WindowUpdate (s : State) (sl : Slot) : RegIndex → Slot → Prop
  | keyPtr (v : Word) : WindowUpdate s sl 10#6 { sl with keyPtr := v }
  | keySize (v : Word) : WindowUpdate s sl 11#6 { sl with keySize := v }
  | fwd (b : Byte) (sel : s.winTaddr.extractLsb' 8 3 = 0#3) :
      WindowUpdate s sl 15#6 { sl with fwd := sl.fwd.put s.winIdx b }
  | inv (b : Byte) (sel : s.winTaddr.extractLsb' 8 3 = 1#3) :
      WindowUpdate s sl 15#6 { sl with inv := sl.inv.put s.winIdx b }

/-- All that a write of a register other than `CMD` can do to slot `c`. -/
theorem State.writeReg_slot (s : State) (i : RegIndex) (v : Word) (c : Nat) :
    (s.writeReg (Reg.ofIndex i) v).slot c = s.slot c ∨
      s.winCtx.toNat = c ∧ ∃ sl sl', s.slot c = some sl ∧ (s.writeReg (Reg.ofIndex i) v).slot c = some sl' ∧
        WindowUpdate s sl i sl' := by
  rcases s.writeReg_cases (Reg.ofIndex i) v with e | ⟨-, e⟩ | ⟨-, e⟩ | ⟨-, e⟩ | ⟨-, e⟩ | ⟨-, e⟩ | ⟨-, e⟩ | ⟨-, e⟩ |
    ⟨-, e⟩ | ⟨-, e⟩ | ⟨sl, sl', hs, e, h⟩ <;> rw [e]
  on_goal 11 =>
    by_cases hc : c = s.winCtx.toNat
    · subst hc
      refine .inr ⟨rfl, sl, sl', hs, State.slot_setSlot_self _ _ _ (State.slot_lt hs), ?_⟩
      rcases h with ⟨hr, rfl⟩ | ⟨hr, rfl⟩ | ⟨hr, sel, rfl⟩ | ⟨hr, sel, rfl⟩ <;>
        obtain rfl := (Reg.ofIndex_eq_iff (by decide) i).1 hr
      · exact .keyPtr v
      · exact .keySize v
      · exact .fwd _ sel
      · exact .inv _ sel
    · exact .inl (State.slot_setSlot_ne _ _ _ _ hc)
  all_goals exact .inl rfl

/-- All that a step can do to slot `c`: nothing; a reset; `INIT c` or `TEARDOWN c`; else the slot is present before and after
it, and a command or a window write has updated it. -/
theorem step_slot {s t : State} (h : step s = .next t) (c : Nat) :
    t.slot c = s.slot c ∨ s.pending.head? = some .reset ∨
    (∃ w, s.pending.head? = some (.write 0#6 w) ∧ (decode w = .ok (.init c) ∨ decode w = .ok (.teardown c))) ∨
    ∃ sl sl', s.slot c = some sl ∧ t.slot c = some sl' ∧
      ((∃ w i, s.pending.head? = some (.write 0#6 w) ∧ decode w = .ok i ∧ CommandUpdate s.dequeued t c sl i sl') ∨
       (∃ i v, s.pending.head? = some (.write i v) ∧ s.winCtx.toNat = c ∧ WindowUpdate s.dequeued sl i sl')) := by
  cases step_effect h with
  | quiet | store | illegal => exact .inl rfl
  | reset head => exact .inr (.inl head)
  | command w i head legal run =>
    rcases exec_slot run c with same | rfl | rfl | ⟨sl, sl', old, new, update⟩
    · exact .inl same
    · exact .inr (.inr (.inl ⟨w, head, .inl legal⟩))
    · exact .inr (.inr (.inl ⟨w, head, .inr legal⟩))
    · exact .inr (.inr (.inr ⟨sl, sl', old, new, .inl ⟨w, i, head, legal, update⟩⟩))
  | register i v head =>
    rcases s.dequeued.writeReg_slot i v c with same | ⟨shown, sl, sl', old, new, update⟩
    · exact .inl same
    · exact .inr (.inr (.inr ⟨sl, sl', old, new, .inr ⟨i, v, head, shown, update⟩⟩))

/-- What a step that changes a field of slot `c` was. -/
theorem step_slotField {α : Type} (get : Slot → α) {s t : State} (h : step s = .next t) {c : Nat}
    (hne : (t.slot c).map get ≠ (s.slot c).map get) :
    s.pending.head? = some .reset ∨
    (∃ w, s.pending.head? = some (.write 0#6 w) ∧ (decode w = .ok (.init c) ∨ decode w = .ok (.teardown c))) ∨
    ∃ sl sl', s.slot c = some sl ∧ get sl' ≠ get sl ∧
      ((∃ w i, s.pending.head? = some (.write 0#6 w) ∧ decode w = .ok i ∧ CommandUpdate s.dequeued t c sl i sl') ∨
       (∃ i v, s.pending.head? = some (.write i v) ∧ s.winCtx.toNat = c ∧ WindowUpdate s.dequeued sl i sl')) := by
  rcases step_slot h c with same | reset | rebound | ⟨sl, sl', old, new, update⟩
  · exact absurd (congrArg _ same) hne
  · exact .inl reset
  · exact .inr (.inl rebound)
  · exact .inr (.inr ⟨sl, sl', old, fun e => hne (by rw [old, new, Option.map_some, Option.map_some, e]), update⟩)

/-- Settles O44: no update of a slot but the window write of that field touches `key_ptr` or `key_size`. -/
theorem keyBindingWriters : Obligations.KeyBindingWriters := by
  refine fun s t c h => ⟨fun hne => ?_, fun hne => ?_⟩
  · rcases step_slotField Slot.keyPtr h hne with reset | rebound | ⟨sl, sl', -, hsl, ⟨w, i, -, -, update⟩ |
      ⟨i, v, head, shown, update⟩⟩
    · exact .inl reset
    · exact .inr (.inl rebound)
    · cases update <;> exact absurd rfl hsl
    · cases update with
      | keyPtr => exact .inr (.inr ⟨v, head, shown⟩)
      | keySize | fwd | inv => exact absurd rfl hsl
  · rcases step_slotField Slot.keySize h hne with reset | rebound | ⟨sl, sl', -, hsl, ⟨w, i, -, -, update⟩ |
      ⟨i, v, head, shown, update⟩⟩
    · exact .inl reset
    · exact .inr (.inl rebound)
    · cases update <;> exact absurd rfl hsl
    · cases update with
      | keySize => exact .inr (.inr ⟨v, head, shown⟩)
      | keyPtr | fwd | inv => exact absurd rfl hsl

/-- Settles O45: of the updates of a slot, `GEN` and the window write of the selected table alone touch a table. -/
theorem slotTableWriters : Obligations.SlotTableWriters := by
  intro s t c h get sel hget hne
  rcases step_slotField get h hne with reset | ⟨w, head, legal⟩ | ⟨sl, sl', -, hsl, ⟨w, i, head, legal, update⟩ |
    ⟨i, v, head, shown, update⟩⟩
  · exact .inl reset
  · exact .inr (.inl ⟨w, head, by tauto⟩)
  · cases update with
    | gen ok => exact .inr (.inl ⟨w, head, .inr (.inr ⟨legal, ok⟩)⟩)
    | enc | encLiteral | dec => rcases hget with ⟨rfl, -⟩ | ⟨rfl, -⟩ <;> exact absurd rfl hsl
  · rcases hget with ⟨rfl, rfl⟩ | ⟨rfl, rfl⟩
    · cases update with
      | fwd _ sel => exact .inr (.inr ⟨v, head, shown, sel⟩)
      | keyPtr | keySize | inv => exact absurd rfl hsl
    · cases update with
      | inv _ sel => exact .inr (.inr ⟨v, head, shown, sel⟩)
      | keyPtr | keySize | fwd => exact absurd rfl hsl

/-- Settles O46: of the updates of a slot, the transforms alone touch a cursor, and each touches one. -/
theorem cursorWriters : Obligations.CursorWriters := by
  refine fun s t c h => ⟨fun hne => ?_, fun hne => ?_⟩
  · rcases step_slotField Slot.encCur h hne with reset | ⟨w, head, legal⟩ | ⟨sl, sl', hs, hsl, ⟨w, i, head, legal, update⟩ |
      ⟨i, v, -, -, update⟩⟩
    · exact .inl reset
    · exact .inr ⟨w, head, by tauto⟩
    · cases update with
      | enc lit ran =>
        exact .inr ⟨w, head, .inr (.inr ⟨legal, lit, ran.succeeded, ran.bufferNonempty, sl, hs, ran.keyNonempty⟩)⟩
      | gen | encLiteral | dec => exact absurd rfl hsl
    · cases update <;> exact absurd rfl hsl
  · rcases step_slotField Slot.decCur h hne with reset | ⟨w, head, legal⟩ | ⟨sl, sl', hs, hsl, ⟨w, i, head, legal, update⟩ |
      ⟨i, v, -, -, update⟩⟩
    · exact .inl reset
    · exact .inr ⟨w, head, by tauto⟩
    · cases update with
      | dec ran =>
        exact .inr ⟨w, head,
          .inr (.inr ⟨.inl legal, ran.succeeded, ran.bufferNonempty, sl, hs, ran.keyNonempty⟩)⟩
      | encLiteral lit ran =>
        exact .inr ⟨w, head,
          .inr (.inr ⟨.inr ⟨legal, lit⟩, ran.succeeded, ran.bufferNonempty, sl, hs, ran.keyNonempty⟩)⟩
      | gen | enc => exact absurd rfl hsl
    · cases update <;> exact absurd rfl hsl

/-! ### `BASE` -/

/-- Only a successful `LDBASE` changes `BASE` (R200). -/
theorem exec_base {i : Instr} {s t : State} (h : exec i s = .next t) :
    t.base = s.base ∨
      i = .ldbase ∧ s.argSrcPtr ≠ nullPtr ∧ ¬ s.argSrcLen < 256#32 ∧ t.statusErr = 0#4 := by
  cases exec_effect h with
  | ldbase present long => exact .inr ⟨rfl, present, long, rfl⟩
  | fails | initFails | initBinds | teardown | gen | verdict | noOp | invalid | enc | encLiteral | dec => exact .inl rfl

/-- Settles O43: `LDBASE` is the only command that writes `BASE`, and it has one word. -/
theorem baseTableWriters : Obligations.BaseTableWriters := by
  intro s t h hne
  cases step_effect h with
  | quiet | store | illegal => exact absurd rfl hne
  | reset head => exact .inl head
  | command w i head legal run =>
    rcases exec_base run with same | ⟨rfl, hn, hl, ok⟩
    · exact absurd same hne
    · exact .inr ⟨eq_of_decode_ldbase legal ▸ head, hn, BitVec.not_lt.1 hl, ok⟩
  | register i v => exact absurd (s.dequeued.writeReg_frame _ v).base hne

/-! ### Memory -/

/-- Only a transform that succeeds changes memory, and buffer bytes alone (R61). -/
theorem exec_memory {i : Instr} {s t : State} (h : exec i s = .next t) (hw : s.mem.wf) :
    s.MemoryKept t ∨ (∃ c, i = .enc c ∨ i = .dec c) ∧ t.statusErr = 0#4 ∧ s.MemoryKeptOutsideBuffer t := by
  cases exec_effect h with
  | enc c sl | encLiteral c sl =>
    exact .inr ⟨⟨c, .inl rfl⟩, rfl, s.scratchCleared.transform_frame sl _ _ hw⟩
  | dec c sl => exact .inr ⟨⟨c, .inr rfl⟩, rfl, s.scratchCleared.transform_frame sl _ _ hw⟩
  | fails | initFails | initBinds | teardown | gen | verdict | noOp | invalid | ldbase => exact .inl fun _ => rfl

/-- Settles O48: a store writes one byte, and of the commands a successful transform alone writes memory. -/
theorem memoryWriters : Obligations.MemoryWriters := by
  intro s t a hw h hne
  cases step_effect h with
  | quiet | reset | illegal => exact absurd rfl hne
  | store a' b head =>
    have ha : a = a' := by
      by_contra hne'
      exact hne ((Memory.read_write hw a' a b).trans (if_neg hne'))
    exact .inl ⟨b, ha ▸ head⟩
  | command w i head legal run =>
    rcases exec_memory run hw with same | ⟨⟨c, hi⟩, ok, outside⟩
    · exact absurd (same a) hne
    · refine .inr ⟨w, c, head, by rcases hi with rfl | rfl <;> simp [legal], ok, ?_⟩
      by_contra hno
      exact hne (outside a fun n hn e => hno ⟨n, hn, e⟩)
  | register i v => exact absurd (congrArg (Memory.read · a) (s.dequeued.writeReg_frame _ v).mem) hne

/-! ### The host registers -/

/-- The host registers that hold state of their own and that the host can write (R20 (d), R26). -/
def hostStored : List Reg :=
  [.mode, .argKeyPtr, .argKeySize, .argBufPtr, .argBufSize, .argSrcPtr, .argSrcLen, .winCtx, .winTaddr]

/-- What keeps the registers keeps what the host reads in them (R40). -/
theorem State.RegistersKept.readReg {s t : State} (k : s.RegistersKept t) {r : Reg} (hr : r ∈ hostStored) :
    t.readReg r = s.readReg r := by
  cases r <;>
    simp_all [hostStored, State.readReg, k.modeLit, k.argKeyPtr, k.argKeySize, k.argBufPtr, k.argBufSize, k.argSrcPtr,
      k.argSrcLen, k.winCtx, k.winTaddr]

/-- A write of a register other than `CMD` changes no other host register. -/
theorem State.readReg_writeReg_ne (s : State) {r r' : Reg} (v : Word) (hr : r ∈ hostStored) (hne : r ≠ r') :
    (s.writeReg r' v).readReg r = s.readReg r := by
  rcases s.writeReg_cases r' v with e | ⟨rfl, e⟩ | ⟨rfl, e⟩ | ⟨rfl, e⟩ | ⟨rfl, e⟩ | ⟨rfl, e⟩ | ⟨rfl, e⟩ | ⟨rfl, e⟩ |
    ⟨rfl, e⟩ | ⟨rfl, e⟩ | ⟨sl, sl', -, e, -⟩ <;> rw [e]
  on_goal 10 => exact ((State.RegistersKept.refl s).setSlot _ _).readReg hr
  all_goals cases r <;> simp_all [hostStored, State.readReg]

/-- Settles O47: no command writes a host register but `STATUS`, and a register write changes no other register. -/
theorem hostRegisterWriters : Obligations.HostRegisterWriters := by
  refine fun s t h => ⟨fun hne => ?_, fun r hr hne => ?_⟩
  · cases step_effect h with
    | quiet | store => exact absurd rfl hne
    | reset head => exact .inl head
    | illegal w _ head | command w _ head => exact .inr ⟨w, head⟩
    | register i v =>
      have f := s.dequeued.writeReg_frame (Reg.ofIndex i) v
      exact absurd (by simp only [State.readReg, State.statusWord, f.statusErr, f.statusResult]; rfl) hne
  · cases step_effect h with
    | quiet | store => exact absurd rfl hne
    | reset head => exact .inl head
    | illegal => exact absurd (((State.RegistersKept.refl s.dequeued).complete _ _).readReg hr) hne
    | command w i _ _ run => exact absurd ((exec_registersKept run).readReg hr) hne
    | register i v head =>
      by_cases hi : r = Reg.ofIndex i
      · have implemented : r ≠ .unimplemented := by rintro rfl; simp at hr
        exact .inr ⟨v, (Reg.ofIndex_eq_iff implemented i).1 hi.symm ▸ head⟩
      · exact absurd (s.dequeued.readReg_writeReg_ne v hr hi) hne

/-! ### Reset, idling and the command port -/

/-- Settles O49: the step is `assertReset`, field by field. -/
theorem resetGivesTheResetValues : Obligations.ResetGivesTheResetValues := by
  intro s rest hp
  have destroyed : ∀ c < s.nctx, ({ s with pending := rest } : State).assertReset.slot c = some Slot.destroyed := by
    intro c hc
    exact List.getElem?_replicate_of_lt hc
  exact ⟨_, (step_pending hp).trans (transact_reset _), Table.entry_ident, State.assertReset_nctx _, destroyed,
    fun i => ⟨Table.entry_zero i, Table.entry_zero i⟩, rfl, rfl, rfl, rfl, rfl, rfl, rfl, rfl, rfl, rfl, rfl,
    fun _ => rfl, rfl, rfl, rfl⟩

/-- Settles O7, the model's reading of an empty queue. -/
theorem idleBlockChangesNothing : Obligations.IdleBlockChangesNothing := fun _ h => step_idle h

/-- Settles O6: a write of index 0 is `commandWrite`, and the whole word is what `withFetchWord` places. -/
theorem stepRunsTheDecodedCommand : Obligations.StepRunsTheDecodedCommand := by
  refine ⟨fun s w rest i hp hd => ⟨wellFormed_of_decode hd, ?_⟩, fun s w i hd => ?_⟩
  · rw [step_pending hp, transact_cmd, commandWrite_legal _ hd]
  · have whole : tableWord 32 w.toNat = w := BitVec.eq_of_toNat_eq (by simpa [tableWord] using w.isLt)
    have hp : (s.withFetchWord 32 w.toNat).pending = .write 0#6 w :: s.pending := by
      rw [State.withFetchWord, whole]; rfl
    rw [step_pending hp, transact_cmd, commandWrite_legal _ hd]
    rfl

end Sys2Proof.Machine
end

section
/-! SUPPORT. What the commands do not read: `STATUS` (10_state.md R39), the window registers (R31) and, but for `ENC`, `MODE`
(R30). -/

namespace Sys2Proof.Machine

section unread

variable (err : BitVec 4) (result lit : Bool) (wc : BitVec 4) (wa : BitVec 11)

/-- `s` with other contents of the registers that no command but `ENC` reads: `STATUS`, `MODE`, `WIN_CTX` and `WIN_TADDR`. -/
def State.withUnread (s : State) : State :=
  { s with statusErr := err, statusResult := result, modeLit := lit, winCtx := wc, winTaddr := wa }

/-- `t`, a command's answer, with other contents of those registers but for `STATUS`, which every command overwrites (R29). -/
def State.answerWith (t : State) : State := t.withUnread t.statusErr t.statusResult lit wc wa

variable {err result lit wc wa} {c : Nat} {sl : Slot} {s t : State}

theorem transformPrologue_withUnread_runs (h : transformPrologue c s = .runs sl s.scratchCleared) :
    transformPrologue c (s.withUnread err result lit wc wa) =
      .runs sl (s.scratchCleared.withUnread err result lit wc wa) := by
  obtain ⟨slot, buf, bound, key, size, valid, -⟩ := transformPrologue_runs_iff.1 h
  exact transformPrologue_runs_iff.2 ⟨slot, buf, bound, key, size, valid, rfl⟩

theorem transformPrologue_withUnread_ends (h : transformPrologue c s = .ends t) :
    transformPrologue c (s.withUnread err result lit wc wa) = .ends (t.answerWith lit wc wa) := by
  have slot : (s.withUnread err result lit wc wa).slot c = s.slot c := rfl
  have buf : (s.withUnread err result lit wc wa).argBufPtr = s.argBufPtr := rfl
  have size : (s.withUnread err result lit wc wa).argBufSize = s.argBufSize := rfl
  have derive : ∀ sl, (s.withUnread err result lit wc wa).derive sl = s.derive sl := fun _ => rfl
  rw [transformPrologue_eq] at h ⊢
  simp only [slot, buf, size, derive]
  cases hs : s.slot c with
  | none => simp only [hs] at h ⊢; cases h; rfl
  | some sl =>
    simp only [hs] at h ⊢
    by_cases hbuf : s.argBufPtr = nullPtr
    · rw [if_pos hbuf] at h ⊢; cases h; rfl
    rw [if_neg hbuf] at h ⊢
    by_cases hm : sl.malformed = true
    · rw [if_pos hm] at h ⊢; cases h; rfl
    rw [if_neg hm] at h ⊢
    by_cases hempty : sl.keySize = 0#32 ∨ s.argBufSize = 0#32
    · rw [if_pos hempty] at h ⊢; cases h; rfl
    rw [if_neg hempty] at h ⊢
    by_cases hvalid : (s.derive sl).1 = sl.fwd ∧ (s.derive sl).2 = sl.inv
    · rw [if_pos hvalid] at h; cases h
    · rw [if_neg hvalid] at h ⊢; cases h; rfl

/-- No command reads `STATUS` or the window registers, and none but `ENC` reads `MODE`. -/
theorem exec_withUnread {i : Instr} (h : exec i s = .next t) (hlit : lit = s.modeLit ∨ ∀ c, i ≠ .enc c) :
    exec i (s.withUnread err result lit wc wa) = .next (t.answerWith lit wc wa) := by
  cases i with
  | init c =>
    rcases execInit_cases h with ⟨hs, rfl⟩ | ⟨old, hs, ⟨hm, rfl⟩ | ⟨hm, rfl⟩⟩
    · exact execInit_absent hs
    · exact execInit_unbound hs hm
    · exact execInit_binds hs hm
  | teardown c =>
    rcases execTeardown_cases h with ⟨hs, rfl⟩ | ⟨old, hs, rfl⟩
    · exact execTeardown_absent hs
    · exact execTeardown_destroys hs
  | gen c =>
    cases hs : s.slot c with
    | none => cases h.symm.trans (execGen_absent hs); exact execGen_absent hs
    | some sl =>
      cases hm : sl.malformed with
      | true => cases h.symm.trans (execGen_malformed hs hm); exact execGen_malformed hs hm
      | false => cases h.symm.trans (execGen_regenerates hs hm); exact execGen_regenerates hs hm
  | validate c =>
    cases hs : s.slot c with
    | none => cases h.symm.trans (execValidate_absent hs); exact execValidate_absent hs
    | some sl =>
      cases hm : sl.malformed with
      | true => cases h.symm.trans (execValidate_malformed hs hm); exact execValidate_malformed hs hm
      | false => cases h.symm.trans (execValidate_verdict hs hm); exact execValidate_verdict hs hm
  | ldbase =>
    by_cases hn : s.argSrcPtr = nullPtr
    · cases h.symm.trans (execLdbase_notFound hn); exact execLdbase_notFound hn
    · by_cases hl : s.argSrcLen < 256#32
      · cases h.symm.trans (execLdbase_io hn hl); exact execLdbase_io hn hl
      · cases h.symm.trans (execLdbase_replaces hn hl); exact execLdbase_replaces hn hl
  | dec c =>
    rcases execDec_cases h with hp | ⟨sl, s', hp, rfl⟩
    · exact execDec_ends (transformPrologue_withUnread_ends hp)
    · obtain ⟨-, -, -, -, -, -, rfl⟩ := transformPrologue_runs_iff.1 hp
      exact execDec_runs (transformPrologue_withUnread_runs hp)
  | enc c =>
    obtain rfl : lit = s.modeLit := hlit.resolve_right fun hne => hne c rfl
    rcases execEnc_cases h with hp | ⟨sl, s', hp, h⟩
    · exact execEnc_ends (transformPrologue_withUnread_ends hp)
    · obtain ⟨-, -, -, -, -, -, rfl⟩ := transformPrologue_runs_iff.1 hp
      have hp' := transformPrologue_withUnread_runs (err := err) (result := result) (lit := s.modeLit) (wc := wc)
        (wa := wa) hp
      rcases h with ⟨hl, rfl⟩ | ⟨hl, rfl⟩
      · exact execEnc_runs hp' hl
      · exact execEnc_runsLiteral hp' hl

end unread

/-- Every command answers a next state (R237; log entry 13). -/
theorem exec_answers (i : Instr) (s : State) : ∃ t, exec i s = .next t := by
  cases i <;> simp only [exec, execInit, execGen, execValidate, execEnc, execDec, execLdbase, execTeardown] <;>
    repeat' split
  all_goals exact ⟨_, rfl⟩

/-- Settles O38: the answer with another `STATUS` is the answer, since a command overwrites `STATUS`. -/
theorem commandsIgnoreStatus : Obligations.CommandsIgnoreStatus := by
  intro i s err result
  obtain ⟨t, h⟩ := exec_answers i s
  have kept := exec_registersKept h
  have same : t.answerWith s.modeLit s.winCtx s.winTaddr = t := by
    simp only [State.answerWith, State.withUnread, ← kept.modeLit, ← kept.winCtx, ← kept.winTaddr]
  rw [h, ← same]
  exact exec_withUnread h (.inl rfl)

/-- Settles O39, by `exec_withUnread` with `MODE` as it is. -/
theorem commandsIgnoreTheWindow : Obligations.CommandsIgnoreTheWindow := by
  intro i s t wc wa h
  have kept := exec_registersKept h
  have same : t.answerWith s.modeLit wc wa = { t with winCtx := wc, winTaddr := wa } := by
    simp only [State.answerWith, State.withUnread, ← kept.modeLit]
  exact ⟨kept.winCtx, kept.winTaddr, same ▸ exec_withUnread h (.inl rfl)⟩

/-- Settles O40, by `exec_withUnread` with the window registers as they are. -/
theorem onlyEncReadsMode : Obligations.OnlyEncReadsMode := by
  intro i s t lit h
  have kept := exec_registersKept h
  have same : t.answerWith lit s.winCtx s.winTaddr = { t with modeLit := lit } := by
    simp only [State.answerWith, State.withUnread, ← kept.winCtx, ← kept.winTaddr]
  exact ⟨kept.modeLit, fun hne => same ▸ exec_withUnread h (.inr hne)⟩

end Sys2Proof.Machine
end

section
/-! SUPPORT. Reserved bits (10_state.md R36) and the window on the tables (R34). -/

namespace Sys2Proof.Machine

/-- A word that holds `k` implemented bits has zeros above them. -/
theorem setWidth_and_high {k : Nat} (x : BitVec k) : x.setWidth 32 &&& (BitVec.allOnes 32 <<< k) = 0#32 := by
  ext n hn
  by_cases h : n < k
  · simp [h]
  · simp [BitVec.getLsbD_of_ge x n (Nat.le_of_not_lt h)]

/-- The low `k` bits of a word are those of the word with its other bits cleared. -/
theorem extractLsb_and_low (k : Nat) (v : Word) :
    (v &&& (BitVec.allOnes k).setWidth 32).extractLsb' 0 k = v.extractLsb' 0 k := by
  ext n hn
  have inside : v.getLsbD n = true → n < 32 := BitVec.lt_of_getLsbD
  simpa [hn] using inside

/-- A read of `WIN_TDATA` gives a byte (R34). -/
theorem State.winData_eq_byte (s : State) : ∃ b : Byte, s.winData = b.setWidth 32 := by
  have zero : ∃ b : Byte, 0#32 = b.setWidth 32 := ⟨0#8, rfl⟩
  unfold State.winData
  split
  · cases s.winSlot with
    | none => exact zero
    | some sl => exact ⟨_, rfl⟩
  · cases s.winSlot with
    | none => exact zero
    | some sl => exact ⟨_, rfl⟩
  · exact ⟨_, rfl⟩
  · exact ⟨_, rfl⟩
  · exact ⟨_, rfl⟩
  · exact zero

/-- The reserved bits of `STATUS` read 0 (R29). -/
theorem State.statusWord_reserved (s : State) : s.statusWord &&& 0xFFFFFEF0#32 = 0#32 := by
  have fields : ∀ (result : Bool) (err : BitVec 4),
      (0#23 ++ BitVec.ofBool result ++ 0#4 ++ err : Word) &&& 0xFFFFFEF0#32 = 0#32 := by decide
  exact fields s.statusResult s.statusErr

/-- Settles O10: implemented bits are what a field of the state holds, so its reserved bits read 0 and no write sees them. -/
theorem unimplementedIndicesAndReservedBits : Obligations.UnimplementedIndicesAndReservedBits := by
  intro s rest i v
  refine ⟨fun hi => ?_, ⟨s.statusWord_reserved, rfl⟩, ⟨setWidth_and_high (BitVec.ofBool s.modeLit), ?_⟩,
    ⟨setWidth_and_high s.winCtx, ?_⟩, ⟨setWidth_and_high s.winTaddr, ?_⟩, ?_, ?_⟩
  · have unimplemented := Reg.ofIndex_unimplemented i hi
    have notCmd : i ≠ 0#6 := by rintro rfl; exact absurd hi (by decide)
    refine ⟨fun hp => ?_, fun hp => ?_⟩
    · rw [step_pending hp, transact_read, unimplemented]; rfl
    · rw [step_pending hp, transact_write _ notCmd, unimplemented]; rfl
  · simp [State.writeReg]
  · exact congrArg (fun c => { s with winCtx := c }) (extractLsb_and_low 4 v).symm
  · exact congrArg (fun a => { s with winTaddr := a }) (extractLsb_and_low 11 v).symm
  · obtain ⟨b, hb⟩ := s.winData_eq_byte
    exact (congrArg (· &&& 0xFFFFFF00#32) hb).trans (setWidth_and_high b)
  · exact congrArg s.writeWinData (extractLsb_and_low 8 v).symm

section window

variable {s : State} {sl : Slot}

theorem State.winData_fwd (slot : s.slot s.winCtx.toNat = some sl) (sel : s.winSel = 0#3) :
    s.winData = (sl.fwd.entry s.winIdx).setWidth 32 := by
  simp [State.winData, State.winSlot, slot, sel]

theorem State.winData_inv (slot : s.slot s.winCtx.toNat = some sl) (sel : s.winSel = 1#3) :
    s.winData = (sl.inv.entry s.winIdx).setWidth 32 := by
  simp [State.winData, State.winSlot, slot, sel]

theorem State.writeWinData_fwd (slot : s.slot s.winCtx.toNat = some sl) (sel : s.winSel = 0#3) (b : Byte) :
    s.writeWinData b = s.setSlot s.winCtx.toNat { sl with fwd := sl.fwd.put s.winIdx b } := by
  simp [State.writeWinData, State.updateWinSlot_some _ _ slot, sel]

theorem State.writeWinData_inv (slot : s.slot s.winCtx.toNat = some sl) (sel : s.winSel = 1#3) (b : Byte) :
    s.writeWinData b = s.setSlot s.winCtx.toNat { sl with inv := sl.inv.put s.winIdx b } := by
  simp [State.writeWinData, State.updateWinSlot_some _ _ slot, sel]

theorem State.winData_setSlot_fwd (slot : s.slot s.winCtx.toNat = some sl) (sel : s.winSel = 0#3) (b : Byte) :
    (s.setSlot s.winCtx.toNat { sl with fwd := sl.fwd.put s.winIdx b }).winData = b.setWidth 32 := by
  rw [State.winData_fwd (State.slot_setSlot_self _ _ _ (State.slot_lt slot)) sel]
  simp [State.winIdx]

theorem State.winData_setSlot_inv (slot : s.slot s.winCtx.toNat = some sl) (sel : s.winSel = 1#3) (b : Byte) :
    (s.setSlot s.winCtx.toNat { sl with inv := sl.inv.put s.winIdx b }).winData = b.setWidth 32 := by
  rw [State.winData_inv (State.slot_setSlot_self _ _ _ (State.slot_lt slot)) sel]
  simp [State.winIdx]

end window

/-- Settles O11: the poked entry reads back through the window, and `put` changes one entry of one table. -/
theorem pokedTableByteReadsBackAlone : Obligations.PokedTableByteReadsBackAlone := by
  intro s sl v slot hsel
  have written : ∀ sl', (s.setSlot s.winCtx.toNat sl').slot s.winCtx.toNat = some sl' := fun sl' =>
    State.slot_setSlot_self _ _ _ (State.slot_lt slot)
  have low : ((v.extractLsb' 0 8).setWidth 32).toNat = v.toNat % 256 := by simp; omega
  have sel_cases : s.winSel = 0#3 ∨ s.winSel = 1#3 := by rw [State.winSel]; bv_omega
  rcases sel_cases with sel | sel
  · refine ⟨_, _, ⟨(State.writeWinData_fwd slot sel _).symm, written _⟩, ?_, fun e he => ⟨?_, rfl⟩, fun _ => rfl,
      fun h => absurd (sel.symm.trans h) (by decide)⟩
    · exact (congrArg _ (State.winData_setSlot_fwd slot sel _)).trans low
    · exact (Table.entry_put _ _ _ _).trans (if_neg (Ne.symm he))
  · refine ⟨_, _, ⟨(State.writeWinData_inv slot sel _).symm, written _⟩, ?_, fun e he => ⟨rfl, ?_⟩,
      fun h => absurd (sel.symm.trans h) (by decide), fun _ => rfl⟩
    · exact (congrArg _ (State.winData_setSlot_inv slot sel _)).trans low
    · exact (Table.entry_put _ _ _ _).trans (if_neg (Ne.symm he))

end Sys2Proof.Machine
end

section
/-! SUPPORT. What a load and a store do (20_memory.md R66), and the frame of the transforms: what `ENC` and `DEC` leave unchanged
once their loop runs, whether or not the spec promises the loop's bytes (R61; 10_state.md R40). -/

namespace Sys2Proof.Machine

/-! ### Loads and stores -/

section hostMemory

variable {s : State} {rest : List HostOp}

theorem step_store {a : Word} {v : Byte} (h : s.pending = .store a v :: rest) :
    step s = .next { s with pending := rest, mem := s.mem.write a v } :=
  (step_pending h).trans (transact_store _ a v)

theorem step_load {a : Word} (h : s.pending = .load a :: rest) :
    step s = .next { s with pending := rest, replies := s.replies ++ [.byte (s.mem.read a)] } :=
  (step_pending h).trans (transact_load _ a)

end hostMemory

/-- Settles O12: the store writes `a` alone (`Memory.read_write`), and the load answers from the memory it left. -/
theorem hostLoadGivesTheByteLastStored : Obligations.HostLoadGivesTheByteLastStored := by
  intro s a b v rest canonical queue
  have stored : ∀ x, (s.mem.write a v).read x = if x = a then v else s.mem.read x := fun x =>
    Memory.read_write canonical a x v
  exact ⟨_, _, step_store queue, step_load rfl, rfl, by rw [← stored b], stored⟩

/-! ### A transform whose loop runs -/

/-- `s` after a transform whose loop left memory `m` and slot `c` as `sl'`: the scratch is clear, the command succeeded. -/
def State.loopDone (s : State) (c : Nat) (m : Memory) (sl' : Slot) : State :=
  ({ s.scratchCleared with mem := m }.setSlot c sl').complete 0#4 false

section loopReached

variable {s : State} {c : Nat} {sl : Slot}

/-- `DEC` past its checks is its loop from `dec_cur` (R173). -/
theorem State.LoopReached.exec_dec (h : s.LoopReached c sl) :
    exec (.dec c) s = .next (s.loopDone c (s.transform sl sl.decCur sl.decByte).1
      { sl with decCur := (s.transform sl sl.decCur sl.decByte).2 }) :=
  execDec_runs h.runs

/-- The corrected `ENC` past its checks is its loop from `enc_cur` (R174). -/
theorem State.LoopReached.exec_enc (h : s.LoopReached c sl) (corrected : s.modeLit = false) :
    exec (.enc c) s = .next (s.loopDone c (s.transform sl sl.encCur sl.encByte).1
      { sl with encCur := (s.transform sl sl.encCur sl.encByte).2 }) :=
  execEnc_runs h.runs corrected

/-- The literal `ENC` past its checks is its loop from the cursor the parameter names, which it writes back to `dec_cur`
(R175). -/
theorem State.LoopReached.exec_encLiteral (h : s.LoopReached c sl) (literal : s.modeLit = true) :
    exec (.enc c) s =
      .next (s.loopDone c (s.transform sl (sl.literalStart s.litEncCursorSrc) sl.encByteLiteral).1
        { sl with decCur := (s.transform sl (sl.literalStart s.litEncCursorSrc) sl.encByteLiteral).2 }) :=
  execEnc_runsLiteral h.runs literal

theorem State.LoopReached.slot_loopDone (h : s.LoopReached c sl) (m : Memory) (sl' : Slot) :
    (s.loopDone c m sl').slot c = some sl' :=
  State.slot_setSlot_self _ _ _ (State.slot_lt (s := { s.scratchCleared with mem := m }) h.slot)

end loopReached

section loopDone

variable (s : State) (c : Nat) (m : Memory) (sl sl' : Slot)

@[simp] theorem State.loopDone_base : (s.loopDone c m sl').base = s.base := rfl
@[simp] theorem State.loopDone_sfwd : (s.loopDone c m sl').sfwd = Table.zero := rfl
@[simp] theorem State.loopDone_sinv : (s.loopDone c m sl').sinv = Table.zero := rfl

@[simp] theorem State.status_loopDone : (s.loopDone c m sl').readReg .status = 0#32 := State.status_succeeded _

theorem State.otherSlotsKept_loopDone : s.OtherSlotsKept c (s.loopDone c m sl') := fun d other =>
  State.slot_setSlot_ne _ c d sl' other

theorem State.registersKept_loopDone : s.RegistersKept (s.loopDone c m sl') :=
  (((State.RegistersKept.scratch s).memory m).setSlot c sl').complete _ _

/-- The loop writes buffer bytes only (R61). -/
theorem State.outsideBuffer_loopDone (canonical : s.mem.wf) (cur : Word) (combine : Byte → Byte → Byte) :
    s.MemoryKeptOutsideBuffer (s.loopDone c (s.transform sl cur combine).1 sl') :=
  s.transform_frame sl cur combine canonical

end loopDone

/-- Whatever variant runs, a transform past its checks ends in `loopDone`, with one cursor of its slot written: `enc_cur` by the
corrected `ENC`, `dec_cur` by the others (R173 to R175). -/
theorem State.LoopReached.exec_transform {i : Instr} {c : Nat} {s : State} {sl : Slot} (h : s.LoopReached c sl)
    (hi : i = .enc c ∨ i = .dec c) :
    ∃ (start cur : Word) (combine : Byte → Byte → Byte),
      exec i s = .next (s.loopDone c (s.transform sl start combine).1
        (if i = .enc c ∧ s.modeLit = false then { sl with encCur := cur } else { sl with decCur := cur })) := by
  rcases hi with rfl | rfl
  · cases mode : s.modeLit with
    | false => exact ⟨_, _, _, by rw [if_pos ⟨rfl, rfl⟩]; exact h.exec_enc mode⟩
    | true => exact ⟨_, _, _, by rw [if_neg (by simp)]; exact h.exec_encLiteral mode⟩
  · exact ⟨_, _, _, by rw [if_neg (by simp)]; exact h.exec_dec⟩

/-- Settles O32: the answer is `loopDone`, and the loop's frame asks nothing of `BASE`, the cursor or the key's place. -/
theorem transformsWriteBufferAndOneCursor : Obligations.TransformsWriteBufferAndOneCursor := by
  intro i c s sl hi canonical reached
  obtain ⟨start, cur, combine, ran⟩ := reached.exec_transform hi
  exact ⟨_, cur, ran, s.status_loopDone c _ _, reached.slot_loopDone _ _,
    s.outsideBuffer_loopDone c sl _ canonical start combine, s.otherSlotsKept_loopDone c _ _,
    s.registersKept_loopDone c _ _, s.loopDone_base c _ _, s.loopDone_sfwd c _ _, s.loopDone_sinv c _ _⟩

end Sys2Proof.Machine
end

section
/-! SUPPORT. The decoder as a whole: through the opcode map, at most one of whose rows matches a word, and through the fields of
the word, each legal word being the command word of its opcode and slot number (30_encoding.md R91 to R95). -/

namespace Sys2Proof

/-! ### The opcode map -/

theorem opField_and (w m : Word) : opField (w &&& m) = opField w &&& opField m := by
  refine BitVec.eq_of_getLsbD_eq fun n hn => ?_
  simp [opField, hn]

/-- Every mask of the map includes bits 7:0 (R93). -/
theorem opField_mask : ∀ r ∈ opcodeTable, opField r.mask = BitVec.allOnes 8 := by decide

/-- The rows of the map differ in bits 7:0 (R93). -/
theorem opcodes_nodup : (opcodeTable.map fun r => opField r.pattern).Nodup := by decide

/-- A row matches words of its own opcode only. -/
theorem opField_of_matches {w : Word} {r : OpcodeRow} (hr : r ∈ opcodeTable) (h : w &&& r.mask = r.pattern) :
    opField w = opField r.pattern := by
  rw [← h, opField_and, opField_mask r hr, BitVec.and_allOnes]

/-- At most one row matches a word (R93). -/
theorem matchingRow_unique {w : Word} {r r' : OpcodeRow} (hr : r ∈ opcodeTable) (hr' : r' ∈ opcodeTable)
    (h : w &&& r.mask = r.pattern) (h' : w &&& r'.mask = r'.pattern) : r = r' :=
  List.inj_on_of_nodup_map opcodes_nodup hr hr' ((opField_of_matches hr h).symm.trans (opField_of_matches hr' h'))

/-- The matching row is the one the decoder finds. -/
theorem decode_of_matches {w : Word} {r : OpcodeRow} (hr : r ∈ opcodeTable) (h : w &&& r.mask = r.pattern) :
    decode w = .ok (r.build (ctxField w)) := by
  cases found : opcodeTable.find? (fun r => r.matchesWord w) with
  | none => exact absurd (decide_eq_true h) (List.find?_eq_none.1 found r hr)
  | some r' =>
    have h' : w &&& r'.mask = r'.pattern :=
      of_decide_eq_true (List.find?_some (p := (OpcodeRow.matchesWord · w)) found)
    simp only [decode, found, matchingRow_unique hr (List.mem_of_find?_eq_some found) h h']

theorem decode_of_no_match {w : Word} (h : ∀ r ∈ opcodeTable, w &&& r.mask ≠ r.pattern) :
    decode w = .error (rejectReason w) := by
  have none_found : opcodeTable.find? (fun r => r.matchesWord w) = none :=
    List.find?_eq_none.2 fun r hr found => h r hr (of_decide_eq_true found)
  simp only [decode, none_found]

/-- Settles O3: the row the decoder finds is the only one that matches. -/
theorem decodingFollowsTheOpcodeMap : Obligations.DecodingFollowsTheOpcodeMap := fun _ =>
  ⟨fun _ hr h => decode_of_matches hr h, fun h => ⟨_, decode_of_no_match h⟩⟩

/-! ### Command words -/

/-- What the decoder makes of a command word, by its opcode (R92). -/
theorem decode_commandWord (op : BitVec 8) {c : Nat} (h : c < 16) :
    decode (commandWord op c) =
      if op = 1#8 then .ok (.init c)
      else if op = 2#8 then .ok (.gen c)
      else if op = 3#8 then .ok (.validate c)
      else if op = 4#8 then .ok (.enc c)
      else if op = 5#8 then .ok (.dec c)
      else if op = 6#8 then (if c = 0 then .ok .ldbase else .error .ldbaseContext)
      else if op = 7#8 then .ok (.teardown c)
      else .error .unknownOpcode := by
  rw [decode_eq_fields, reservedField_commandWord, opField_commandWord, ctxField_commandWord op h, if_neg (not_not.2 rfl)]

/-- A word with zeros in the reserved bits is the command word of its opcode and slot number (R91). -/
theorem commandWord_of_fields {w : Word} (reserved : reservedField w = 0#20) :
    commandWord (opField w) (ctxField w) = w := by
  have slot : BitVec.ofNat 4 (ctxField w) = w.extractLsb' 8 4 := BitVec.ofNat_toNat _ _
  rw [commandWord, slot, ← reserved]
  exact (word_fields w).symm

theorem reservedField_of_decode {w : Word} {i : Instr} (h : decode w = .ok i) : reservedField w = 0#20 := by
  by_contra reserved
  rw [decode_eq_fields, if_pos reserved] at h
  cases h

/-- Settles O1: each command's word has the command's own opcode, and a slot number below 16 survives the `CTX` field. -/
theorem decodeEncodeRoundTrip : Obligations.DecodeEncodeRoundTrip := by
  intro i wf
  cases i with
  | ldbase => exact decode_commandWord 6#8 (by decide)
  | init c => exact decode_commandWord 1#8 (of_decide_eq_true wf)
  | gen c => exact decode_commandWord 2#8 (of_decide_eq_true wf)
  | validate c => exact decode_commandWord 3#8 (of_decide_eq_true wf)
  | enc c => exact decode_commandWord 4#8 (of_decide_eq_true wf)
  | dec c => exact decode_commandWord 5#8 (of_decide_eq_true wf)
  | teardown c => exact decode_commandWord 7#8 (of_decide_eq_true wf)

/-- The command a command word decodes to has that word. -/
theorem encode_of_decode_commandWord {op : BitVec 8} {c : Nat} {i : Instr} (hc : c < 16)
    (h : decode (commandWord op c) = .ok i) : encode i = commandWord op c := by
  rw [decode_commandWord op hc] at h
  repeat' split at h
  all_goals cases h
  all_goals subst_vars; rfl

/-- Settles O2: a legal word has no reserved bit set, so it is put together from its opcode and its slot number. -/
theorem encodeDecodeRoundTrip : Obligations.EncodeDecodeRoundTrip := by
  intro w i h
  have word := commandWord_of_fields (reservedField_of_decode h)
  refine ⟨wellFormed_of_decode h, ?_⟩
  rw [← word] at h ⊢
  exact encode_of_decode_commandWord (ctxField_lt w) h

/-- Settles O5: the legal words are those of their commands, the illegal ones are decoded. -/
theorem writtenOutWordsDecode : Obligations.WrittenOutWordsDecode :=
  have legal := decodeEncodeRoundTrip
  ⟨legal (.init 0) rfl, legal (.gen 1) rfl, legal (.validate 2) rfl, legal (.enc 7) rfl, legal (.dec 8) rfl, legal .ldbase rfl,
    legal (.teardown 15) rfl, by decide, by decide, by decide⟩

/-! ### Illegal words -/

/-- An opcode is one of the map's, or illegal (R92, R95). -/
theorem opcode_cases (op : BitVec 8) :
    (op = 0#8 ∨ 8#8 ≤ op) ∨ op = 6#8 ∨ op = 1#8 ∨ op = 2#8 ∨ op = 3#8 ∨ op = 4#8 ∨ op = 5#8 ∨ op = 7#8 := by
  bv_omega

theorem ctxField_eq_zero_iff (w : Word) : ctxField w = 0 ↔ w.extractLsb' 8 4 = 0#4 := by
  rw [ctxField, ← BitVec.toNat_inj]; rfl

/-- The illegal words by their fields (R95). -/
theorem decode_error_iff (w : Word) :
    (∃ why, decode w = .error why) ↔
      opField w = 0#8 ∨ 8#8 ≤ opField w ∨ reservedField w ≠ 0#20 ∨ (opField w = 6#8 ∧ w.extractLsb' 8 4 ≠ 0#4) := by
  rw [decode_eq_fields, ne_eq (w.extractLsb' 8 4), ← ctxField_eq_zero_iff]
  by_cases reserved : reservedField w = 0#20
  · rcases opcode_cases (opField w) with (h | h) | h | h | h | h | h | h | h
    · simp [reserved, h]
    · have unknown : ∀ k < 8#8, opField w ≠ k := fun k hk e => BitVec.not_lt.2 h (e ▸ hk)
      simp [reserved, h, unknown]
    · by_cases slot : ctxField w = 0 <;> simp [reserved, h, slot]
    all_goals simp [reserved, h]
  · simp [reserved]

end Sys2Proof

namespace Sys2Proof.Machine

/-- Settles O4: the illegal words by their fields, and `State.illegalCommand` as the whole effect of the transaction. -/
theorem illegalWordsAreReportedAndChangeNothing : Obligations.IllegalWordsAreReportedAndChangeNothing := by
  refine fun w => ⟨decode_error_iff w, fun s rest why hp hd => ?_⟩
  rw [step_pending hp, transact_cmd, commandWrite_illegal _ hd]
  rfl

end Sys2Proof.Machine
end

section
/-! SUPPORT. What `INIT`, `GEN`, `VALIDATE` and `TEARDOWN` leave in their slot and in `STATUS`, with and without a permutation as
`BASE` (40_context.md R120, R121; 41_table_generator.md R143, R145; 42_table_validator.md R162). -/

namespace Sys2Proof

/-- The steps of any key keep a permutation a permutation (R140). -/
theorem Table.forward_isPerm {B : Table} (perm : B.isPerm = true) (key : List Byte) : (B.forward key).isPerm = true := by
  induction key generalizing B with
  | nil => exact perm
  | cons k key ih => exact ih (Table.rotateAround_isPerm k perm)

/-- The inverse of a permutation undoes it, whatever the free table is (R143). -/
theorem Table.entry_invert_entry {F : Table} (perm : F.isPerm = true) (undefinedTable : Table) (i : Byte) :
    (F.invert undefinedTable).entry (F.entry i) = i := by
  rw [Table.invert_of_isPerm perm, Table.entry_ofFun, Table.position_entry perm]

end Sys2Proof

namespace Sys2Proof.Machine

section slotCommands

variable {s : State} {c : Nat} {sl : Slot}

/-- From a permutation as `BASE`, the second table of `derive` undoes the first. -/
theorem State.derive_inverse (perm : s.base.isPerm = true) (sl : Slot) (i : Byte) :
    (s.derive sl).2.entry ((s.derive sl).1.entry i) = i :=
  Table.entry_invert_entry (Table.forward_isPerm perm _) _ i

/-- A command that ends by writing slot `c`: the slot holds what was written, and all the rest is kept. -/
theorem State.kept_and_slot_of_setSlot (present : c < s.nctx) (sl : Slot) (err : BitVec 4) (result : Bool) :
    s.KeptButSlot c ((s.setSlot c sl).complete err result) ∧
      ((s.setSlot c sl).complete err result).slot c = some sl :=
  ⟨State.KeptButSlot.setSlot_complete s c sl err result, State.slot_setSlot_self s c sl present⟩

/-- `INIT c` of a key it can bind, whatever `BASE` is (R120). -/
theorem exec_init_binds (present : c < s.nctx) (bindable : ¬(0#32 < s.argKeySize ∧ s.argKeyPtr = nullPtr)) :
    ∃ t old, exec (.init c) s = .next t ∧ t.readReg .status = 0#32 ∧ s.KeptButSlot c t ∧
      t.slot c = some (s.regenerate (s.boundSlot old)) := by
  obtain ⟨old, slot⟩ := State.exists_slot present
  have bound : (s.boundSlot old).malformed = false := (s.boundSlot old).not_malformed_iff.2 bindable
  exact ⟨_, old, execInit_binds slot bound, State.status_succeeded _, State.kept_and_slot_of_setSlot present _ _ _⟩

/-- `GEN c` of a well-formed slot, whatever `BASE` is (R145). -/
theorem exec_gen_regenerates (slot : s.slot c = some sl) (bound : sl.malformed = false) :
    ∃ t, exec (.gen c) s = .next t ∧ t.readReg .status = 0#32 ∧ s.KeptButSlot c t ∧
      t.slot c = some (s.regenerate sl) :=
  ⟨_, execGen_regenerates slot bound, State.status_succeeded _,
    State.kept_and_slot_of_setSlot (State.slot_lt slot) _ _ _⟩

/-- `VALIDATE c` of a well-formed slot reports whether its tables are what `derive` gives now, whatever `BASE` is (R162). -/
theorem exec_validate_reports (slot : s.slot c = some sl) (bound : sl.malformed = false) :
    ∃ verdict, exec (.validate c) s = .next (s.scratchCleared.complete 0#4 verdict) ∧
      (verdict = true ↔ s.tablesValid sl) := by
  refine ⟨_, execValidate_verdict slot bound, ?_⟩
  rw [decide_eq_true_iff, State.tablesValid, eq_comm, @eq_comm _ sl.inv]

/-- What the host reads in `STATUS` after a verdict (R29, R162). -/
theorem State.status_verdict (s : State) (verdict : Bool) :
    (s.complete 0#4 verdict).readReg .status = if verdict then 0x100#32 else 0#32 := by
  cases verdict with
  | true => exact s.status_valid
  | false => exact s.status_succeeded

end slotCommands

/-- Settles O20: the slot written is `boundSlot` with the tables of `derive`, the second of which undoes the first. -/
theorem initBindsTheKeyAndDerivesTables : Obligations.InitBindsTheKeyAndDerivesTables := by
  refine fun c s => ⟨fun absent => ?_, fun present unbindable => ?_, fun present bindable perm => ?_⟩
  · exact execInit_absent ((State.slot_eq_none_iff s c).2 absent)
  · obtain ⟨old, slot⟩ := State.exists_slot present
    exact ⟨_, execInit_unbound slot ((s.boundSlot_malformed old).2 unbindable), State.status_invalidArgument _,
      State.kept_and_slot_of_setSlot present _ _ _⟩
  · obtain ⟨t, old, ran, status, kept, slot⟩ := exec_init_binds present bindable
    exact ⟨t, _, _, ran, status, kept, rfl, State.derive_inverse perm (s.boundSlot old), slot⟩

/-- Settles O33: none of the three commands asks whether `BASE` is a permutation. -/
theorem tableCommandsRunOnWithoutAPermutation : Obligations.TableCommandsRunOnWithoutAPermutation := by
  refine fun c s sl _ slot => ⟨fun bindable => ?_, fun wellFormed => ⟨?_, ?_⟩⟩
  · obtain ⟨t, old, ran, status, kept, written⟩ := exec_init_binds (State.slot_lt slot) bindable
    exact ⟨t, _, ran, status, kept, written⟩
  · obtain ⟨t, ran, status, kept, written⟩ := exec_gen_regenerates slot (sl.not_malformed_iff.2 wellFormed)
    exact ⟨t, _, ran, status, kept, written⟩
  · obtain ⟨verdict, ran, valid_iff⟩ := exec_validate_reports slot (sl.not_malformed_iff.2 wellFormed)
    refine ⟨_, ran, fun valid => ?_, fun invalid => ?_, rfl, rfl, rfl, fun _ => rfl,
      (State.RegistersKept.scratch s).complete _ _, fun _ => rfl⟩
    · rw [State.status_verdict, if_pos (valid_iff.2 valid)]
    · rw [State.status_verdict, if_neg (mt valid_iff.1 invalid)]

/-- Settles O21: the slot written is the destroyed state (R33). -/
theorem teardownDestroysTheSlot : Obligations.TeardownDestroysTheSlot := by
  refine fun c s => ⟨fun absent => ?_, fun present => ?_⟩
  · exact execTeardown_absent ((State.slot_eq_none_iff s c).2 absent)
  · obtain ⟨old, slot⟩ := State.exists_slot present
    exact ⟨_, execTeardown_destroys slot, State.status_succeeded _, State.kept_and_slot_of_setSlot present _ _ _⟩

end Sys2Proof.Machine
end

section
/-! SUPPORT. Slots are independent (40_context.md R123): a command's answer from a state with other contents of another slot. -/

namespace Sys2Proof.Machine

/-- The prologue's answer with other contents of slot `d`. -/
def Prologue.withSlot (d : Nat) (sl : Slot) : Prologue → Prologue
  | .ends t => .ends (t.setSlot d sl)
  | .runs own t => .runs own (t.setSlot d sl)

section otherSlot

variable {s t : State} {c d : Nat} {sl : Slot}

/-- Writes of different slots commute, at the end of a command too. -/
theorem State.setSlot_comm_complete (s : State) (other : c ≠ d) (own : Slot) (err : BitVec 4) (result : Bool) :
    ((s.setSlot d sl).setSlot c own).complete err result = ((s.setSlot c own).complete err result).setSlot d sl := by
  have comm : (s.setSlot d sl).setSlot c own = (s.setSlot c own).setSlot d sl :=
    congrArg (fun slots => { s with ctx := slots }) (List.set_comm sl own other.symm)
  rw [comm]; rfl

/-- The checks of a transform read no slot but the command's own. -/
theorem transformPrologue_setSlot (other : c ≠ d) :
    transformPrologue c (s.setSlot d sl) = (transformPrologue c s).withSlot d sl := by
  have derive : ∀ own, (s.setSlot d sl).derive own = s.derive own := fun _ => rfl
  simp only [transformPrologue_eq, State.slot_setSlot_ne s d c sl other, State.setSlot_argBufPtr, State.setSlot_argBufSize,
    derive]
  cases s.slot c with
  | none => rfl
  | some own => dsimp only; split_ifs <;> rfl

theorem transformPrologue_setSlot_of_ends (other : c ≠ d) (h : transformPrologue c s = .ends t) :
    transformPrologue c (s.setSlot d sl) = .ends (t.setSlot d sl) := by
  rw [transformPrologue_setSlot other, h]; rfl

theorem transformPrologue_setSlot_of_runs {own : Slot} (other : c ≠ d) (h : transformPrologue c s = .runs own t) :
    transformPrologue c (s.setSlot d sl) = .runs own (t.setSlot d sl) := by
  rw [transformPrologue_setSlot other, h]; rfl

/-- What a slot other than a command's own holds makes no difference to the rest of its answer (R123). -/
theorem exec_setSlot_other {i : Instr} (other : ctxOf i ≠ some d) (h : exec i s = .next t) :
    exec i (s.setSlot d sl) = .next (t.setSlot d sl) := by
  have ne : ∀ {c}, ctxOf i = some c → c ≠ d := fun hc e => other (e ▸ hc)
  have same : ∀ {c}, c ≠ d → (s.setSlot d sl).slot c = s.slot c := fun hc => State.slot_setSlot_ne _ _ _ _ hc
  cases i with
  | init c =>
    have hc := ne rfl
    rcases execInit_cases h with ⟨absent, rfl⟩ | ⟨old, slot, ⟨unbound, rfl⟩ | ⟨bound, rfl⟩⟩
    · exact execInit_absent ((same hc).trans absent)
    · rw [← State.setSlot_comm_complete s hc]
      exact execInit_unbound ((same hc).trans slot) unbound
    · rw [← State.setSlot_comm_complete s hc]
      exact execInit_binds ((same hc).trans slot) bound
  | teardown c =>
    have hc := ne rfl
    rcases execTeardown_cases h with ⟨absent, rfl⟩ | ⟨old, slot, rfl⟩
    · exact execTeardown_absent ((same hc).trans absent)
    · rw [← State.setSlot_comm_complete s hc]
      exact execTeardown_destroys ((same hc).trans slot)
  | gen c =>
    have hc := ne rfl
    cases slot : s.slot c with
    | none => cases h.symm.trans (execGen_absent slot); exact execGen_absent ((same hc).trans slot)
    | some own =>
      have slot' := (same hc).trans slot
      cases bound : own.malformed with
      | true => cases h.symm.trans (execGen_malformed slot bound); exact execGen_malformed slot' bound
      | false =>
        cases h.symm.trans (execGen_regenerates slot bound)
        rw [← State.setSlot_comm_complete s hc]
        exact execGen_regenerates slot' bound
  | validate c =>
    have hc := ne rfl
    cases slot : s.slot c with
    | none => cases h.symm.trans (execValidate_absent slot); exact execValidate_absent ((same hc).trans slot)
    | some own =>
      have slot' := (same hc).trans slot
      cases bound : own.malformed with
      | true => cases h.symm.trans (execValidate_malformed slot bound); exact execValidate_malformed slot' bound
      | false => cases h.symm.trans (execValidate_verdict slot bound); exact execValidate_verdict slot' bound
  | ldbase =>
    by_cases absent : s.argSrcPtr = nullPtr
    · cases h.symm.trans (execLdbase_notFound absent); exact execLdbase_notFound absent
    · by_cases short : s.argSrcLen < 256#32
      · cases h.symm.trans (execLdbase_io absent short); exact execLdbase_io absent short
      · cases h.symm.trans (execLdbase_replaces absent short); exact execLdbase_replaces absent short
  | dec c =>
    have hc := ne rfl
    rcases execDec_cases h with ends | ⟨own, u, runs, rfl⟩
    · exact execDec_ends (transformPrologue_setSlot_of_ends hc ends)
    · rw [State.runDec_eq, ← State.setSlot_comm_complete _ hc]
      exact execDec_runs (transformPrologue_setSlot_of_runs hc runs)
  | enc c =>
    have hc := ne rfl
    rcases execEnc_cases h with ends | ⟨own, u, runs, ⟨corrected, rfl⟩ | ⟨literal, rfl⟩⟩
    · exact execEnc_ends (transformPrologue_setSlot_of_ends hc ends)
    · rw [State.runEnc_eq, ← State.setSlot_comm_complete _ hc]
      exact execEnc_runs (transformPrologue_setSlot_of_runs hc runs) corrected
    · rw [State.runEncLiteral_eq, ← State.setSlot_comm_complete _ hc]
      exact execEnc_runsLiteral (transformPrologue_setSlot_of_runs hc runs) literal

end otherSlot

/-- Settles O41: `exec_otherSlots` for what a command writes, `exec_setSlot_other` for what it reads. -/
theorem slotsAreIndependent : Obligations.SlotsAreIndependent := fun _ _ _ _ _ other h =>
  ⟨exec_otherSlots h other, exec_setSlot_other other h⟩

end Sys2Proof.Machine
end

section
/-! SUPPORT. What a key byte does to every entry (41_table_generator.md R141, R142, R144), and what `derive` and `GEN` give from a
permutation as `BASE` (R143, R145, R147). -/

namespace Sys2Proof

/-! ### One key byte -/

/-- Step 1 for the key byte `k` moves entries below position `k` alone (R141). -/
theorem Table.entry_moveToFront_pred (F : Table) {k : Byte} (hk : 0#8 < k) (q : Byte) :
    (F.moveToFront (k - 1#8)).entry q =
      if q < k then (if q = 0#8 then F.entry (k - 1#8) else F.entry (q - 1#8)) else F.entry q := by
  have reached : q ≤ k - 1#8 ↔ q < k := by bv_omega
  simp only [Table.entry_moveToFront, reached]
  by_cases first : q = 0#8
  · simp [first, hk]
  · simp [first]

/-- Step 2 for the key byte `k` moves entries above position `k` alone (R142). -/
theorem Table.entry_moveToBack_succ (F : Table) {k : Byte} (hk : k < 255#8) (q : Byte) :
    (F.moveToBack (k + 1#8)).entry q =
      if k < q then (if q = 255#8 then F.entry (k + 1#8) else F.entry (q + 1#8)) else F.entry q := by
  have reached : k + 1#8 ≤ q ↔ k < q := by bv_omega
  simp only [Table.entry_moveToBack, reached]
  by_cases last : q = 255#8
  · simp [last, hk]
  · simp [last]

theorem Table.moveToFront_zero (F : Table) : F.moveToFront 0#8 = F :=
  Table.ext_entry fun q => by
    rw [Table.entry_moveToFront]
    by_cases first : q = 0#8
    · simp [first]
    · rw [if_neg first, if_neg (by bv_omega)]

theorem Table.moveToBack_last (F : Table) : F.moveToBack 255#8 = F :=
  Table.ext_entry fun q => by
    rw [Table.entry_moveToBack]
    by_cases last : q = 255#8
    · simp [last]
    · rw [if_neg last, if_neg (by bv_omega)]

theorem Byte.lt_or_eq_or_gt (q k : Byte) : q < k ∨ q = k ∨ k < q := by bv_omega

/-- The entries after the steps of the key byte `k`, 0 and 255 included: below position `k` they rotate towards `k`, above it they
rotate towards `k` too, and the one at `k` stays. -/
theorem Table.entry_rotateAround (F : Table) (k q : Byte) :
    (F.rotateAround k).entry q =
      if q < k then (if q = 0#8 then F.entry (k - 1#8) else F.entry (q - 1#8))
      else if q = k then F.entry k
      else if q = 255#8 then F.entry (k + 1#8) else F.entry (q + 1#8) := by
  have front : (if 0#8 < k then F.moveToFront (k - 1#8) else F).entry =
      fun p => if p < k then (if p = 0#8 then F.entry (k - 1#8) else F.entry (p - 1#8)) else F.entry p := by
    funext p
    split
    · next hk => exact F.entry_moveToFront_pred hk p
    · next hk => rw [if_neg (by bv_omega)]
  rw [Table.rotateAround_eq]
  by_cases hk : k < 255#8
  · rw [if_pos hk, Table.entry_moveToBack_succ _ hk, front]
    rcases Byte.lt_or_eq_or_gt q k with below | rfl | above
    · simp [below, BitVec.lt_asymm below]
    · simp
    · have next_above : q ≠ 255#8 → ¬ q + 1#8 < k := by bv_omega
      have succ_above : ¬ k + 1#8 < k := by bv_omega
      by_cases last : q = 255#8
      · simp [last, hk, succ_above, BitVec.lt_asymm hk, (BitVec.ne_of_lt hk).symm]
      · simp [last, above, next_above, BitVec.lt_asymm above, (BitVec.ne_of_lt above).symm]
  · have last : k = 255#8 := by bv_omega
    subst last
    rw [if_neg hk, front]
    by_cases below : q < 255#8
    · simp only [below, if_true]
    · have stays : q = 255#8 := by bv_omega
      simp [stays]

/-- Both steps are performed for a key byte strictly between 0 and 255 (R140). -/
theorem Table.rotateAround_eq_front_back (F : Table) {k : Byte} (hpos : 0#8 < k) (hlt : k < 255#8) :
    F.rotateAround k = (F.moveToFront (k - 1#8)).moveToBack (k + 1#8) := by
  rw [Table.rotateAround_eq, if_pos hlt, if_pos hpos]

/-- The other order gives the same table: step 1 moves entries below the key byte alone, step 2 entries above it alone. -/
theorem Table.rotateAround_eq_back_front (F : Table) {k : Byte} (hpos : 0#8 < k) (hlt : k < 255#8) :
    F.rotateAround k = (F.moveToBack (k + 1#8)).moveToFront (k - 1#8) := by
  refine Table.ext_entry fun q => ?_
  rw [Table.entry_rotateAround, Table.entry_moveToFront_pred _ hpos]
  simp only [Table.entry_moveToBack_succ _ hlt]
  rcases Byte.lt_or_eq_or_gt q k with below | rfl | above
  · have prev_below : q ≠ 0#8 → ¬ k < q - 1#8 := by bv_omega
    have pred_below : ¬ k < k - 1#8 := by bv_omega
    by_cases first : q = 0#8
    · simp [first, hpos, pred_below]
    · simp [first, below, prev_below]
  · simp
  · simp [above, BitVec.lt_asymm above, (BitVec.ne_of_lt above).symm]

/-- Settles O13: the laws of the two steps, and `rotateAround` by its guards. -/
theorem keyByteStepsRotateTheTable : Obligations.KeyByteStepsRotateTheTable := fun F =>
  ⟨F.entry_moveToFront, F.entry_moveToBack, F.moveToFront_zero, F.moveToBack_last, rfl, rfl, fun k =>
    ⟨by rw [Table.entry_rotateAround]; simp,
      fun hpos hlt => ⟨F.rotateAround_eq_front_back hpos hlt, F.rotateAround_eq_back_front hpos hlt⟩⟩⟩

/-- Settles O14: the entries after one key byte, read off the identity. -/
theorem singleKeyByteFromIdentity : Obligations.SingleKeyByteFromIdentity := fun k q => by
  rw [Table.forward_cons, Table.forward_nil, Table.entry_rotateAround]
  simp only [Table.entry_ident]

/-! ### A whole key, from a permutation -/

/-- Settles O15: every key byte keeps a permutation a permutation (`Table.forward_isPerm`), which is what the counts say. -/
theorem keyBytesKeepPermutations : Obligations.KeyBytesKeepPermutations := fun B key once =>
  (Table.isPerm_iff_count _).1 (Table.forward_isPerm ((Table.isPerm_iff_count B).2 once) key)

/-- A table that undoes a permutation is undone by it, and is a permutation itself (R143). -/
theorem Table.inverse_of_undoes {F I : Table} (perm : F.isPerm = true) (undoes : ∀ i, I.entry (F.entry i) = i) :
    I.isPerm = true ∧ ∀ i, F.entry (I.entry i) = i := by
  refine ⟨(Table.isPerm_iff_surjective I).2 fun i => ⟨F.entry i, undoes i⟩, fun i => ?_⟩
  obtain ⟨j, rfl⟩ := (Table.isPerm_iff_surjective F).1 perm i
  rw [undoes]

end Sys2Proof

namespace Sys2Proof.Machine

/-- Settles O16: the second table of `derive` undoes the first, which is a permutation. -/
theorem derivedTablesAreInverse : Obligations.DerivedTablesAreInverse := by
  rintro s sl _ _ perm ⟨rfl, rfl⟩
  have undoes := State.derive_inverse perm sl
  obtain ⟨perm_inv, undone⟩ := Table.inverse_of_undoes (Table.forward_isPerm perm _) undoes
  exact ⟨perm_inv, fun i => ⟨undoes i, undone i⟩⟩

/-- From a permutation as `BASE`, no free value enters `derive` (R143). -/
theorem State.derive_of_isPerm {s : State} (perm : s.base.isPerm = true) (sl : Slot) :
    s.derive sl =
      (s.base.forward (s.mem.keyOf sl), Table.ofFun (s.base.forward (s.mem.keyOf sl)).position) := by
  rw [← Table.invert_of_isPerm (Table.forward_isPerm perm _) (Config.undefinedInverse s.freeSeq)]
  rfl

/-- The key bytes of a slot are as many as its key size, each read at its own address (R68). -/
theorem Memory.keyOf_congr {m m' : Memory} {sl sl' : Slot} (size : sl'.keySize = sl.keySize)
    (bytes : ∀ j < sl.keySize.toNat, m'.read (elemAddr sl'.keyPtr j) = m.read (elemAddr sl.keyPtr j)) :
    m'.keyOf sl' = m.keyOf sl := by
  unfold Memory.keyOf
  rw [size]
  exact Memory.bytesAt_congr bytes

theorem Memory.keyOf_of_empty {m : Memory} {sl : Slot} (empty : sl.keySize = 0#32) : m.keyOf sl = [] :=
  List.length_eq_zero_iff.1 (by rw [Memory.keyOf, Memory.length_bytesAt, empty]; rfl)

/-- Settles O17: `derive` is a function of `BASE` and the key bytes. -/
theorem sameKeyAndBaseGiveSameTables : Obligations.SameKeyAndBaseGiveSameTables := by
  intro s t sl sl' perm base size bytes
  have key : t.mem.keyOf sl' = s.mem.keyOf sl := Memory.keyOf_congr size bytes
  rw [State.derive_of_isPerm perm, State.derive_of_isPerm (base ▸ perm), base, key]

/-- Settles O18: no key byte, no step. -/
theorem emptyKeyGivesBaseAndItsInverse : Obligations.EmptyKeyGivesBaseAndItsInverse := by
  intro s sl perm empty
  have forward : (s.derive sl).1 = s.base := by
    rw [State.derive_fst, Memory.keyOf_of_empty empty, Table.forward_nil]
  have undoes := State.derive_inverse perm sl
  rw [forward] at undoes
  exact ⟨forward, undoes⟩

/-- Settles O22: the slot written is `regenerate`, whose tables are those of `derive`. -/
theorem genRegeneratesTheTables : Obligations.GenRegeneratesTheTables := by
  refine fun c s => ⟨fun absent => ?_, fun sl slot => ⟨fun malformed => ?_, fun wellFormed perm => ?_⟩⟩
  · exact execGen_absent ((State.slot_eq_none_iff s c).2 absent)
  · exact execGen_malformed slot (sl.malformed_iff.2 malformed)
  · obtain ⟨t, ran, status, kept, written⟩ := exec_gen_regenerates slot (sl.not_malformed_iff.2 wellFormed)
    exact ⟨t, _, _, ran, status, kept, rfl, State.derive_inverse perm sl, written⟩

end Sys2Proof.Machine
end

section
/-! SUPPORT. The validator (42_table_validator.md R160 to R162): its report, its verdict after `INIT` and `GEN`, and its verdict
after a window write to a table (10_state.md R34). -/

namespace Sys2Proof.Machine

/-- Settles O23: the verdict is `tablesValid` (`exec_validate_reports`); only the scratch tables and the flags are written. -/
theorem validateReportsTheVerdict : Obligations.ValidateReportsTheVerdict := by
  refine fun c s => ⟨fun absent => ?_, fun sl slot => ⟨fun malformed => ?_, fun wellFormed _ => ?_⟩⟩
  · exact execValidate_absent ((State.slot_eq_none_iff s c).2 absent)
  · exact execValidate_malformed slot (sl.malformed_iff.2 malformed)
  · obtain ⟨verdict, ran, valid_iff⟩ := exec_validate_reports slot (sl.not_malformed_iff.2 wellFormed)
    refine ⟨_, ran, fun valid => ?_, fun invalid => ?_, rfl, rfl, rfl, fun _ => rfl,
      (State.RegistersKept.scratch s).complete _ _, fun _ => rfl⟩
    · rw [State.status_verdict, if_pos (valid_iff.2 valid)]
    · rw [State.status_verdict, if_neg (mt valid_iff.1 invalid)]

/-! ### After `INIT` and `GEN` -/

section regenerated

variable {c : Nat} {s t : State}

/-- A successful `INIT c` or `GEN c` leaves a well-formed slot with the tables that `derive` gave, and keeps `BASE` and memory
(R120, R145). -/
theorem regenerated_of_init_or_gen (ran : exec (.init c) s = .next t ∨ exec (.gen c) s = .next t)
    (success : t.statusErr = 0#4) :
    ∃ sl, sl.malformed = false ∧ t.slot c = some (s.regenerate sl) ∧ t.base = s.base ∧ t.mem = s.mem := by
  have error : 2#4 ≠ 0#4 := by decide
  rcases ran with init | gen
  · obtain ⟨-, rfl⟩ | ⟨old, slot, ⟨-, rfl⟩ | ⟨bound, rfl⟩⟩ := execInit_cases init
    · exact absurd success error
    · exact absurd success error
    · exact ⟨_, bound, s.slot_setSlot_self c _ (State.slot_lt slot), rfl, rfl⟩
  · obtain rfl | ⟨sl, slot, bound, rfl⟩ := execGen_cases gen
    · exact absurd success error
    · exact ⟨sl, bound, s.slot_setSlot_self c _ (State.slot_lt slot), rfl, rfl⟩

/-- From a permutation as `BASE`, regenerated tables stay valid while `BASE` and memory stay (R147). -/
theorem State.tablesValid_regenerate (perm : s.base.isPerm = true) (base : t.base = s.base) (mem : t.mem = s.mem)
    (sl : Slot) : t.tablesValid (s.regenerate sl) := by
  have same : t.derive (s.regenerate sl) = s.derive sl :=
    sameKeyAndBaseGiveSameTables s t sl (s.regenerate sl) perm base rfl fun j _ => by
      rw [State.keyByte, mem]; rfl
  exact ⟨congrArg Prod.fst same.symm, congrArg Prod.snd same.symm⟩

end regenerated

/-- Settles O24: the slot was regenerated, and `VALIDATE` derives the same tables again. -/
theorem validRightAfterInitOrGen : Obligations.ValidRightAfterInitOrGen := by
  intro c s t perm ran success
  obtain ⟨sl, bound, slot, base, mem⟩ := regenerated_of_init_or_gen ran success
  obtain ⟨-, reports⟩ := (validateReportsTheVerdict c t).2 _ slot
  obtain ⟨u, validated, status, -⟩ := reports (sl.not_malformed_iff.1 bound) (base ▸ perm)
  exact ⟨u, validated, status (State.tablesValid_regenerate perm base mem sl)⟩

/-! ### After a window write to a table -/

section corrupted

variable {s : State} {sl sl' : Slot}

/-- A write of `WIN_TDATA` leaves the key binding of the shown slot as it is (R34). -/
theorem State.writeWinData_keepsKey (slot : s.slot s.winCtx.toNat = some sl) (b : Byte) :
    ∃ sl', s.writeWinData b = s.setSlot s.winCtx.toNat sl' ∧ sl'.keyPtr = sl.keyPtr ∧ sl'.keySize = sl.keySize := by
  rcases s.writeWinData_cases b with unchanged | ⟨shown, slot', written⟩
  · exact ⟨sl, unchanged.trans (s.setSlot_self _ _ slot).symm, rfl, rfl⟩
  · obtain rfl : shown = sl := Option.some.inj (slot'.symm.trans slot)
    obtain ⟨-, written⟩ | ⟨-, written⟩ := written
    · exact ⟨_, written, rfl, rfl⟩
    · exact ⟨_, written, rfl, rfl⟩

/-- What `WIN_TDATA` shows of a slot is in its two tables (R34). -/
theorem State.winData_setSlot_of_sameTables (slot : s.slot s.winCtx.toNat = some sl) (fwd : sl'.fwd = sl.fwd)
    (inv : sl'.inv = sl.inv) : (s.setSlot s.winCtx.toNat sl').winData = s.winData := by
  have shown : s.winSlot = some sl := slot
  have shown' : (s.setSlot s.winCtx.toNat sl').winSlot = some sl' := s.slot_setSlot_self _ sl' (State.slot_lt slot)
  simp only [State.winData, shown, shown', Option.map_some, fwd, inv]
  rfl

/-- Valid tables are determined by the key binding: two valid slots with one binding have the same tables. -/
theorem State.sameTables_of_tablesValid (c : Nat) (keyPtr : sl'.keyPtr = sl.keyPtr) (keySize : sl'.keySize = sl.keySize)
    (valid : s.tablesValid sl) (valid' : (s.setSlot c sl').tablesValid sl') : sl'.fwd = sl.fwd ∧ sl'.inv = sl.inv := by
  have same : (s.setSlot c sl').derive sl' = s.derive sl :=
    State.derive_congr rfl rfl (by simp [Memory.keyOf, keyPtr, keySize])
  obtain ⟨fwd, inv⟩ := valid
  obtain ⟨fwd', inv'⟩ := valid'
  rw [same] at fwd' inv'
  exact ⟨fwd'.trans fwd.symm, inv'.trans inv.symm⟩

end corrupted

/-- Settles O25: were the tables still valid they would be those from before, and the window would show the old byte. -/
theorem oneCorruptedByteIsDetected : Obligations.OneCorruptedByteIsDetected := by
  intro s sl v perm slot bound valid sel differs
  obtain ⟨_, _, ⟨rfl, -⟩, readsBack, -⟩ := pokedTableByteReadsBackAlone s sl v slot sel
  obtain ⟨sl', written, keyPtr, keySize⟩ := s.writeWinData_keepsKey slot (v.extractLsb' 0 8)
  have poked : s.writeReg .winTdata v = s.setSlot s.winCtx.toNat sl' := written
  rw [poked] at readsBack ⊢
  have invalid : ¬ (s.setSlot s.winCtx.toNat sl').tablesValid sl' := fun valid' => by
    obtain ⟨fwd, inv⟩ := State.sameTables_of_tablesValid _ keyPtr keySize valid valid'
    have shown := congrArg BitVec.toNat (State.winData_setSlot_of_sameTables slot fwd inv)
    exact differs (shown.symm.trans readsBack)
  have bound' : ¬ (0#32 < sl'.keySize ∧ sl'.keyPtr = nullPtr) := by
    rw [keyPtr, keySize]; exact sl.not_malformed_iff.1 bound
  obtain ⟨-, reports⟩ := (validateReportsTheVerdict _ _).2 sl' (s.slot_setSlot_self _ sl' (State.slot_lt slot))
  obtain ⟨u, validated, -, status, -⟩ := reports bound' perm
  exact ⟨u, validated, status invalid⟩

end Sys2Proof.Machine
end

section
/-! SUPPORT. The checks before a transform's loop (43_transform.md R171, R172), and what the loop leaves when it runs, said at
once for `DEC` and both variants of `ENC` (R173 to R176). -/

namespace Sys2Proof.Machine

section checks

variable {i : Instr} {c : Nat} {s t : State} {sl : Slot}

/-- `ENC` and `DEC` end as their common prologue does. -/
theorem exec_transform_ends (hi : i = .enc c ∨ i = .dec c) (ends : transformPrologue c s = .ends t) :
    exec i s = .next t := by
  rcases hi with rfl | rfl
  · exact execEnc_ends ends
  · exact execDec_ends ends

theorem transformPrologue_absent (absent : s.slot c = none) :
    transformPrologue c s = .ends (s.complete 2#4 false) := by
  simp [transformPrologue_eq, absent]

theorem transformPrologue_noBuffer (slot : s.slot c = some sl) (null : s.argBufPtr = nullPtr) :
    transformPrologue c s = .ends (s.complete 1#4 false) := by
  simp [transformPrologue_eq, slot, null]

theorem transformPrologue_malformed (slot : s.slot c = some sl) (buffer : s.argBufPtr ≠ nullPtr)
    (malformed : sl.malformed = true) : transformPrologue c s = .ends (s.complete 2#4 false) := by
  simp [transformPrologue_eq, slot, buffer, malformed]

theorem transformPrologue_empty (slot : s.slot c = some sl) (buffer : s.argBufPtr ≠ nullPtr)
    (bound : sl.malformed = false) (empty : sl.keySize = 0#32 ∨ s.argBufSize = 0#32) :
    transformPrologue c s = .ends (s.complete 0#4 false) := by
  simp [transformPrologue_eq, slot, buffer, bound, empty]

theorem transformPrologue_invalid (slot : s.slot c = some sl) (buffer : s.argBufPtr ≠ nullPtr)
    (bound : sl.malformed = false) (key : 0#32 < sl.keySize) (size : 0#32 < s.argBufSize)
    (invalid : ¬ s.tablesValid sl) : transformPrologue c s = .ends (s.scratchCleared.complete 2#4 false) := by
  have nonempty : ¬(sl.keySize = 0#32 ∨ s.argBufSize = 0#32) :=
    not_or.2 ⟨(BitVec.pos_iff_ne_zero _).1 key, (BitVec.pos_iff_ne_zero _).1 size⟩
  have stale : ¬((s.derive sl).1 = sl.fwd ∧ (s.derive sl).2 = sl.inv) := fun ⟨fwd, inv⟩ =>
    invalid ⟨fwd.symm, inv.symm⟩
  simp [transformPrologue_eq, slot, buffer, bound, nonempty, stale]

end checks

/-- Settles O28: the prologue ends before the validator runs. -/
theorem emptyKeyOrBufferIsANoOp : Obligations.EmptyKeyOrBufferIsANoOp := fun _ _ _ _ hi slot buffer bound empty =>
  exec_transform_ends hi (transformPrologue_empty slot buffer bound empty)

/-- Settles O27: the cases of the prologue in their order; past the last one the loop runs and the command succeeds. -/
theorem transformChecksInOrder : Obligations.TransformChecksInOrder := by
  refine fun i c s hi => ⟨fun absent => ?_, fun sl slot => ⟨fun null => ?_, fun buffer key unbound => ?_,
    fun buffer wellFormed => ⟨fun empty => ?_, fun key size _ invalid => ?_, fun key size valid _ => ?_⟩⟩⟩
  · exact exec_transform_ends hi (transformPrologue_absent ((State.slot_eq_none_iff s c).2 absent))
  · exact exec_transform_ends hi (transformPrologue_noBuffer slot null)
  · exact exec_transform_ends hi (transformPrologue_malformed slot buffer (sl.malformed_iff.2 ⟨key, unbound⟩))
  · exact exec_transform_ends hi (transformPrologue_empty slot buffer (sl.not_malformed_iff.2 wellFormed) empty)
  · exact exec_transform_ends hi
      (transformPrologue_invalid slot buffer (sl.not_malformed_iff.2 wellFormed) key size invalid)
  · have reached : s.LoopReached c sl := ⟨slot, buffer, fun null => wellFormed ⟨key, null⟩, key, size, valid⟩
    obtain ⟨_, _, _, ran⟩ := reached.exec_transform hi
    exact ⟨_, ran, s.status_loopDone c _ _⟩

/-! ### The loop of whichever variant runs -/

/-- How the loop of `i` combines a buffer byte with its key byte: `DEC` (R173), the corrected `ENC` (R174), the literal `ENC`
(R175). -/
def State.loopByte (s : State) (i : Instr) (sl : Slot) : Byte → Byte → Byte :=
  match i with
  | .enc _ => if s.modeLit then sl.encByteLiteral else sl.encByte
  | _ => sl.decByte

/-- The corrected `ENC` moves `enc_cur`; the literal `ENC` and `DEC` move `dec_cur` (R173 to R175). -/
def State.movesEncCur (s : State) : Instr → Bool
  | .enc _ => !s.modeLit
  | _ => false

/-- Slot `sl` with the cursor that `i` writes back at `cur`. -/
def State.cursorMoved (s : State) (i : Instr) (sl : Slot) (cur : Word) : Slot :=
  { sl with
    encCur := if s.movesEncCur i then cur else sl.encCur
    decCur := if s.movesEncCur i then sl.decCur else cur }

/-- What the loop of `i` gives on slot `sl`: memory, and the cursor to write back. -/
def State.transformed (s : State) (i : Instr) (sl : Slot) : Memory × Word :=
  s.transform sl (s.startCursor i sl) (s.loopByte i sl)

section variants

variable (s : State) (c : Nat) (sl : Slot) (cur : Word)

@[simp] theorem State.startCursor_dec : s.startCursor (.dec c) sl = sl.decCur := rfl

theorem State.startCursor_enc (corrected : s.modeLit = false) : s.startCursor (.enc c) sl = sl.encCur :=
  if_pos (.inl corrected)

theorem State.startCursor_encLiteral (literal : s.modeLit = true) :
    s.startCursor (.enc c) sl = sl.literalStart s.litEncCursorSrc := by
  cases src : s.litEncCursorSrc <;> simp [State.startCursor, Slot.literalStart, literal, src]

@[simp] theorem State.loopByte_dec : s.loopByte (.dec c) sl = sl.decByte := rfl

theorem State.loopByte_enc (corrected : s.modeLit = false) : s.loopByte (.enc c) sl = sl.encByte := by
  simp [State.loopByte, corrected]

theorem State.loopByte_encLiteral (literal : s.modeLit = true) : s.loopByte (.enc c) sl = sl.encByteLiteral := by
  simp [State.loopByte, literal]

@[simp] theorem State.cursorMoved_dec : s.cursorMoved (.dec c) sl cur = { sl with decCur := cur } := rfl

theorem State.cursorMoved_enc (corrected : s.modeLit = false) :
    s.cursorMoved (.enc c) sl cur = { sl with encCur := cur } := by simp [State.cursorMoved, State.movesEncCur, corrected]

theorem State.cursorMoved_encLiteral (literal : s.modeLit = true) :
    s.cursorMoved (.enc c) sl cur = { sl with decCur := cur } := by simp [State.cursorMoved, State.movesEncCur, literal]

end variants

section loopReached

variable {i : Instr} {c : Nat} {s : State} {sl : Slot}

/-- `ENC` and `DEC` past their checks leave what their loop gives (R173 to R175). -/
theorem State.LoopReached.exec_transformed (h : s.LoopReached c sl) (hi : i = .enc c ∨ i = .dec c) :
    exec i s = .next (s.loopDone c (s.transformed i sl).1 (s.cursorMoved i sl (s.transformed i sl).2)) := by
  rcases hi with rfl | rfl
  · cases mode : s.modeLit with
    | false =>
      rw [State.transformed, s.startCursor_enc c sl mode, s.loopByte_enc c sl mode, s.cursorMoved_enc c sl _ mode]
      exact h.exec_enc mode
    | true =>
      rw [State.transformed, s.startCursor_encLiteral c sl mode, s.loopByte_encLiteral c sl mode,
        s.cursorMoved_encLiteral c sl _ mode]
      exact h.exec_encLiteral mode
  · exact h.exec_dec

/-- The whole effect of a transform from a cursor inside the key, with buffer and key apart, whatever `BASE` is (R173 to
R176). -/
theorem State.LoopReached.effect (h : s.LoopReached c sl) (hi : i = .enc c ∨ i = .dec c) (canonical : s.mem.wf)
    (inside : s.startCursor i sl < sl.keySize)
    (apart : ∀ n < s.argBufSize.toNat, ∀ j < sl.keySize.toNat, elemAddr s.argBufPtr n ≠ elemAddr sl.keyPtr j) :
    ∃ (t : State) (cur : Word), exec i s = .next t ∧ t.readReg .status = 0#32 ∧
      (∀ n < s.argBufSize.toNat, t.mem.read (elemAddr s.argBufPtr n) =
        s.loopByte i sl (s.bufByte n) (s.keyByte sl (((s.startCursor i sl).toNat + n) % sl.keySize.toNat))) ∧
      s.MemoryKeptOutsideBuffer t ∧
      cur.toNat = ((s.startCursor i sl).toNat + s.argBufSize.toNat) % sl.keySize.toNat ∧
      t.slot c = some (s.cursorMoved i sl cur) ∧
      s.OtherSlotsKept c t ∧ s.RegistersKept t ∧ t.base = s.base ∧ t.sfwd = Table.zero ∧ t.sinv = Table.zero :=
  ⟨_, _, h.exec_transformed hi, s.status_loopDone c _ _,
    s.transform_bytes sl _ _ canonical inside h.bufferNonempty apart,
    s.outsideBuffer_loopDone c sl _ canonical _ _, s.transform_cursor sl _ _ inside, h.slot_loopDone _ _,
    s.otherSlotsKept_loopDone c _ _, s.registersKept_loopDone c _ _, s.loopDone_base c _ _, s.loopDone_sfwd c _ _,
    s.loopDone_sinv c _ _⟩

end loopReached

/-- Settles O29: the effect of the loop, for `DEC`. -/
theorem decDecryptsTheBuffer : Obligations.DecDecryptsTheBuffer := fun c _ _ canonical reached promised =>
  reached.effect (i := .dec c) (.inr rfl) canonical promised.cursor promised.disjoint

/-- Settles O30: the effect of the loop, for the corrected `ENC`. -/
theorem encEncryptsTheBuffer : Obligations.EncEncryptsTheBuffer := by
  intro c s sl canonical corrected reached promised
  have start := s.startCursor_enc c sl corrected
  have effect := reached.effect (i := .enc c) (.inl rfl) canonical (start ▸ promised.cursor) promised.disjoint
  simpa only [start, s.loopByte_enc c sl corrected, Slot.encByte, s.cursorMoved_enc c sl _ corrected] using effect

/-- Settles O31: the effect of the loop, for the literal `ENC` and either value of the parameter. -/
theorem literalEncUsesInvAndWritesDecCur : Obligations.LiteralEncUsesInvAndWritesDecCur := by
  intro c s sl cur₀ canonical literal reached named promised
  have start : s.startCursor (.enc c) sl = cur₀ := by simp [State.startCursor, literal, named]
  have effect := reached.effect (i := .enc c) (.inl rfl) canonical (start ▸ promised.cursor) promised.disjoint
  simpa only [start, s.loopByte_encLiteral c sl literal, Slot.encByteLiteral, s.cursorMoved_encLiteral c sl _ literal]
    using effect

/-- The three ways of combining, as one formula. -/
theorem State.loopByte_eq {i : Instr} {c : Nat} (s : State) (sl : Slot) (b k : Byte) (hi : i = .enc c ∨ i = .dec c) :
    s.loopByte i sl b k =
      if i = .dec c then sl.inv.entry b ^^^ k
      else if s.modeLit = false then sl.fwd.entry (b ^^^ k)
      else sl.inv.entry (b ^^^ k) := by
  rcases hi with rfl | rfl
  · cases mode : s.modeLit with
    | false => simp [s.loopByte_enc c sl mode, Slot.encByte]
    | true => simp [s.loopByte_encLiteral c sl mode, Slot.encByteLiteral]
  · simp [Slot.decByte]

/-- Settles O34: neither the prologue nor the loop asks whether `BASE` is a permutation. -/
theorem transformsRunOnWithoutAPermutation : Obligations.TransformsRunOnWithoutAPermutation := by
  refine fun i c s sl hi canonical _ slot buffer bound key size => ⟨fun invalid => ?_, fun valid inside apart => ?_⟩
  · have wellFormed : sl.malformed = false := sl.not_malformed_iff.2 fun ⟨_, null⟩ => bound null
    exact exec_transform_ends hi (transformPrologue_invalid slot buffer wellFormed key size invalid)
  · have reached : s.LoopReached c sl := ⟨slot, buffer, bound, key, size, valid⟩
    obtain ⟨t, _, ran, status, bytes, outside, -⟩ := reached.effect hi canonical inside apart
    refine ⟨t, ran, status, outside, fun n hn k hk => ?_⟩
    rw [bytes n hn, ← hk, s.loopByte_eq sl _ k hi]

end Sys2Proof.Machine
end

section
/-! SUPPORT. The cursor invariant I3 (10_state.md R23; 43_transform.md R176) through every command. -/

namespace Sys2Proof.Machine

/-- Invariant I3 of R23: in every slot with a key, both cursors are inside the key. -/
def State.CursorsInKeys (s : State) : Prop := ∀ c sl, s.slot c = some sl → sl.cursorsInKey

theorem Slot.destroyed_cursorsInKey : Slot.destroyed.cursorsInKey := fun key => absurd key (by decide)

theorem State.CursorsInKeys.setSlot {s : State} (h : s.CursorsInKeys) {c : Nat} (present : c < s.nctx) {sl : Slot}
    (inside : sl.cursorsInKey) : (s.setSlot c sl).CursorsInKeys := by
  intro d sl' slot
  by_cases own : d = c
  · subst own
    rw [s.slot_setSlot_self d sl present] at slot
    exact Option.some.inj slot ▸ inside
  · rw [s.slot_setSlot_ne c d sl own] at slot
    exact h d sl' slot

theorem State.CursorsInKeys.loopDone {s : State} (h : s.CursorsInKeys) {c : Nat} (present : c < s.nctx) (m : Memory)
    {sl : Slot} (inside : sl.cursorsInKey) : (s.loopDone c m sl).CursorsInKeys :=
  State.CursorsInKeys.setSlot (s := { s.scratchCleared with mem := m }) h present inside

/-- The cursor that a loop from inside the key writes back is inside the key (R176). -/
theorem State.transform_cursor_lt (s : State) (sl : Slot) (cur : Word) (combine : Byte → Byte → Byte)
    (inside : cur < sl.keySize) : (s.transform sl cur combine).2 < sl.keySize := by
  rw [BitVec.lt_def, s.transform_cursor sl cur combine inside]
  rw [BitVec.lt_def] at inside
  exact Nat.mod_lt _ (by omega)

/-- A transform whose loop runs has a slot with a key, so both its cursors are inside that key. -/
theorem State.CursorsInKeys.of_runs {s s' : State} (h : s.CursorsInKeys) {c : Nat} {sl : Slot}
    (runs : transformPrologue c s = .runs sl s') :
    c < s.nctx ∧ sl.encCur < sl.keySize ∧ sl.decCur < sl.keySize := by
  obtain ⟨slot, -, -, key, -⟩ := transformPrologue_runs_iff.1 runs
  exact ⟨State.slot_lt slot, h c sl slot ((BitVec.pos_iff_ne_zero _).2 key)⟩

/-- Settles O37: a cursor is 0 after `INIT` and inside the key after a loop, and a destroyed slot has no key; no other command
writes a cursor or a key size. -/
theorem commandsKeepCursorsInsideTheKey : Obligations.CommandsKeepCursorsInsideTheKey := by
  intro i s t (h : s.CursorsInKeys) ran
  change t.CursorsInKeys
  cases exec_effect ran with
  | fails | verdict | noOp | invalid | ldbase => exact h
  | initFails c present => exact h.setSlot present Slot.destroyed_cursorsInKey
  | teardown c present => exact h.setSlot present Slot.destroyed_cursorsInKey
  | initBinds c old slot => exact h.setSlot (State.slot_lt slot) fun key => ⟨key, key⟩
  | gen c sl slot => exact h.setSlot (State.slot_lt slot) (h c sl slot)
  | enc c sl runs =>
    obtain ⟨present, enc, dec⟩ := h.of_runs runs
    exact h.loopDone present _ fun _ => ⟨s.scratchCleared.transform_cursor_lt sl _ _ enc, dec⟩
  | dec c sl runs =>
    obtain ⟨present, enc, dec⟩ := h.of_runs runs
    exact h.loopDone present _ fun _ => ⟨enc, s.scratchCleared.transform_cursor_lt sl _ _ dec⟩
  | encLiteral c sl runs =>
    obtain ⟨present, enc, dec⟩ := h.of_runs runs
    have start : sl.literalStart s.litEncCursorSrc < sl.keySize := by
      cases s.litEncCursorSrc with
      | enc => exact enc
      | dec => exact dec
    exact h.loopDone present _ fun _ => ⟨enc, s.scratchCleared.transform_cursor_lt sl _ _ start⟩

end Sys2Proof.Machine
end

section
/-! SUPPORT. The laws of the transforms (43_transform.md R177, R178). Both speak of one transform after another: the first keeps
the key, the tables and `BASE`, so the second finds the slot valid again. -/

namespace Sys2Proof.Machine

/-! ### A slot after its cursor moved -/

section cursorMoved

variable {s s' : State} {i : Instr} {c : Nat} {sl sl' : Slot} (cur cur' : Word)

/-- What the loop combines depends on `MODE` and the slot's tables alone. -/
theorem State.loopByte_congr (mode : s'.modeLit = s.modeLit) (fwd : sl'.fwd = sl.fwd) (inv : sl'.inv = sl.inv) :
    s'.loopByte i sl' = s.loopByte i sl := by
  have enc : sl'.encByte = sl.encByte := by unfold Slot.encByte; rw [fwd]
  have lit : sl'.encByteLiteral = sl.encByteLiteral := by unfold Slot.encByteLiteral; rw [inv]
  have dec : sl'.decByte = sl.decByte := by unfold Slot.decByte; rw [inv]
  unfold State.loopByte
  rw [mode, enc, lit, dec]

/-- The corrected variant starts from the cursor it writes: the next call of the same command goes on from there (R178). -/
theorem State.startCursor_cursorMoved (hi : i = .enc c ∨ i = .dec c) (corrected : s.modeLit = false)
    (corrected' : s'.modeLit = false) : s'.startCursor i (s.cursorMoved i sl cur) = cur := by
  rcases hi with rfl | rfl
  · rw [s'.startCursor_enc c _ corrected', s.cursorMoved_enc c sl cur corrected]
  · rfl

theorem State.cursorMoved_startCursor (hi : i = .enc c ∨ i = .dec c) (corrected : s.modeLit = false) :
    s.cursorMoved i sl (s.startCursor i sl) = sl := by
  rcases hi with rfl | rfl
  · rw [s.startCursor_enc c _ corrected, s.cursorMoved_enc c sl _ corrected]
  · rfl

/-- Of two moves of one cursor the second stands. -/
theorem State.cursorMoved_cursorMoved (mode : s'.modeLit = s.modeLit) :
    s'.cursorMoved i (s.cursorMoved i sl cur) cur' = s.cursorMoved i sl cur' := by
  have moves : s'.movesEncCur i = s.movesEncCur i := by unfold State.movesEncCur; rw [mode]
  cases which : s.movesEncCur i with
  | false => simp [State.cursorMoved, moves, which]
  | true => simp [State.cursorMoved, moves, which]

end cursorMoved

/-! ### A transform the spec promises, its buffer empty or not -/

/-- `i` passes its checks on slot `sl`, but for a buffer that may be empty; its start cursor is inside the key, and buffer and key
are apart. -/
structure State.TransformReady (s : State) (i : Instr) (c : Nat) (sl : Slot) : Prop where
  slot : s.slot c = some sl
  bufferPresent : s.argBufPtr ≠ nullPtr
  keyBound : sl.keyPtr ≠ nullPtr
  keyNonempty : 0#32 < sl.keySize
  valid : s.tablesValid sl
  inside : s.startCursor i sl < sl.keySize
  apart : ∀ n < s.argBufSize.toNat, ∀ j < sl.keySize.toNat, elemAddr s.argBufPtr n ≠ elemAddr sl.keyPtr j

theorem State.LoopReached.ready {s : State} {i : Instr} {c : Nat} {sl : Slot} (h : s.LoopReached c sl)
    (inside : s.startCursor i sl < sl.keySize)
    (apart : ∀ n < s.argBufSize.toNat, ∀ j < sl.keySize.toNat, elemAddr s.argBufPtr n ≠ elemAddr sl.keyPtr j) :
    s.TransformReady i c sl :=
  ⟨h.slot, h.bufferPresent, h.keyBound, h.keyNonempty, h.valid, inside, apart⟩

/-- Slot `sl` after the loop of `i` on it. -/
def State.slotAfter (s : State) (i : Instr) (sl : Slot) : Slot := s.cursorMoved i sl (s.transformed i sl).2

@[simp] theorem State.slotAfter_keyPtr (s : State) (i : Instr) (sl : Slot) : (s.slotAfter i sl).keyPtr = sl.keyPtr := rfl

@[simp] theorem State.slotAfter_keySize (s : State) (i : Instr) (sl : Slot) : (s.slotAfter i sl).keySize = sl.keySize := rfl

@[simp] theorem State.slotAfter_fwd (s : State) (i : Instr) (sl : Slot) : (s.slotAfter i sl).fwd = sl.fwd := rfl

@[simp] theorem State.slotAfter_inv (s : State) (i : Instr) (sl : Slot) : (s.slotAfter i sl).inv = sl.inv := rfl

/-- The index of the key byte that the loop of `i` combines with buffer byte `n` (R176). -/
def State.keyIndex (s : State) (i : Instr) (sl : Slot) (n : Nat) : Nat :=
  ((s.startCursor i sl).toNat + n) % sl.keySize.toNat

/-- `t` is `s` after the loop of `i` on slot `c`, which held `sl`. -/
structure State.TransformDone (s : State) (i : Instr) (c : Nat) (sl : Slot) (t : State) : Prop where
  status : t.readReg .status = 0#32
  mem : t.mem = (s.transformed i sl).1
  slot : t.slot c = some (s.slotAfter i sl)
  base : t.base = s.base
  registers : s.RegistersKept t

namespace State.TransformReady

variable {s : State} {i : Instr} {c : Nat} {sl : Slot}

/-- The key bytes are as before after the loop: they are outside the buffer (R276). -/
theorem keyByte_transformed (h : s.TransformReady i c sl) (canonical : s.mem.wf) {j : Nat} (hj : j < sl.keySize.toNat) :
    (s.transformed i sl).1.read (elemAddr sl.keyPtr j) = s.keyByte sl j :=
  s.transform_frame sl _ _ canonical _ fun n hn => (h.apart n hn j hj).symm

/-- Where the loop's result is promised, no free value enters it. -/
theorem transformed_eq_loop (h : s.TransformReady i c sl) :
    s.transformed i sl =
      transformLoop none sl s.argBufPtr (s.loopByte i sl) s.argBufSize.toNat 0 (s.startCursor i sl) s.mem := by
  have written : ¬ sl.keySize ≤ s.startCursor i sl := BitVec.not_le.2 h.inside
  rw [State.transformed, State.transform]
  simp only [if_neg written]
  by_cases empty : s.argBufSize = 0#32
  · rw [empty]; rfl
  · rw [s.loopDraw_eq_none sl _ h.inside ((BitVec.pos_iff_ne_zero _).2 empty) h.apart]

/-- A promised transform completes as its loop says; with an empty buffer, as the loop over no byte (R172 to R174). -/
theorem done (h : s.TransformReady i c sl) (hi : i = .enc c ∨ i = .dec c) (corrected : s.modeLit = false) :
    ∃ t, exec i s = .next t ∧ s.TransformDone i c sl t := by
  by_cases empty : s.argBufSize = 0#32
  · have bound : sl.malformed = false := sl.not_malformed_iff.2 fun ⟨_, null⟩ => h.keyBound null
    have nothing : s.transformed i sl = (s.mem, s.startCursor i sl) := by
      rw [h.transformed_eq_loop, empty]; rfl
    have same : s.slotAfter i sl = sl := by
      rw [State.slotAfter, nothing]; exact State.cursorMoved_startCursor hi corrected
    exact ⟨_, exec_transform_ends hi (transformPrologue_empty h.slot h.bufferPresent bound (.inr empty)),
      s.status_succeeded, by rw [nothing]; rfl, by rw [same]; exact h.slot, rfl, (State.RegistersKept.refl s).complete _ _⟩
  · have reached : s.LoopReached c sl :=
      ⟨h.slot, h.bufferPresent, h.keyBound, h.keyNonempty, (BitVec.pos_iff_ne_zero _).2 empty, h.valid⟩
    exact ⟨_, reached.exec_transformed hi, s.status_loopDone c _ _, rfl, reached.slot_loopDone _ _, rfl,
      s.registersKept_loopDone c _ _⟩

/-- From a permutation as `BASE`, a transform after a promised one finds its slot valid again: the key bytes, the tables and
`BASE` are as they were. State `u` may have other operand registers than the first one's answer. -/
theorem after (h : s.TransformReady i c sl) (perm : s.base.isPerm = true) (canonical : s.mem.wf) {u : State} {j : Instr}
    (slot : u.slot c = some (s.slotAfter i sl)) (mem : u.mem = (s.transformed i sl).1) (base : u.base = s.base)
    (bufferPresent : u.argBufPtr ≠ nullPtr) (inside : u.startCursor j (s.slotAfter i sl) < sl.keySize)
    (apart : ∀ n < u.argBufSize.toNat, ∀ j < sl.keySize.toNat, elemAddr u.argBufPtr n ≠ elemAddr sl.keyPtr j) :
    u.TransformReady j c (s.slotAfter i sl) := by
  have derive : u.derive (s.slotAfter i sl) = s.derive sl :=
    sameKeyAndBaseGiveSameTables s u sl (s.slotAfter i sl) perm base rfl fun k hk => by
      rw [State.keyByte, s.slotAfter_keyPtr, mem, h.keyByte_transformed canonical hk]
  have valid : u.tablesValid (s.slotAfter i sl) := by
    rw [State.tablesValid, derive]; exact h.valid
  exact ⟨slot, bufferPresent, h.keyBound, h.keyNonempty, valid, inside, apart⟩

/-- The loop's byte law (R176). -/
theorem bufByte_transformed (h : s.TransformReady i c sl) (canonical : s.mem.wf) {n : Nat} (hn : n < s.argBufSize.toNat) :
    (s.transformed i sl).1.read (elemAddr s.argBufPtr n) =
      s.loopByte i sl (s.bufByte n) (s.keyByte sl (s.keyIndex i sl n)) :=
  have size : 0#32 < s.argBufSize := BitVec.lt_def.2 (Nat.zero_lt_of_lt hn)
  s.transform_bytes sl _ _ canonical h.inside size h.apart n hn

theorem keyIndex_lt (h : s.TransformReady i c sl) (n : Nat) : s.keyIndex i sl n < sl.keySize.toNat :=
  Nat.mod_lt _ (BitVec.lt_def.1 h.keyNonempty)

end State.TransformReady

/-! ### R177: `ENC` and `DEC` undo each other -/

section roundTrip

variable {s t : State} {i j : Instr} {c : Nat} {sl : Slot}

/-- With equal cursors, both transforms of a round trip start from the same one. -/
theorem State.startCursor_eq_encCur (hi : i = .enc c ∨ i = .dec c) (corrected : s.modeLit = false)
    (equal : sl.encCur = sl.decCur) : s.startCursor i sl = sl.encCur := by
  rcases hi with rfl | rfl
  · exact s.startCursor_enc c sl corrected
  · exact equal.symm

variable (pair : i = .enc c ∧ j = .dec c ∨ i = .dec c ∧ j = .enc c) (corrected : s.modeLit = false)
include pair corrected

/-- A transform leaves the other transform's cursor where it was. -/
theorem State.startCursor_cursorMoved_other (corrected' : t.modeLit = false) (cur : Word) :
    t.startCursor j (s.cursorMoved i sl cur) = s.startCursor j sl := by
  rcases pair with ⟨rfl, rfl⟩ | ⟨rfl, rfl⟩
  · rw [s.cursorMoved_enc c sl cur corrected]; rfl
  · rw [t.startCursor_enc c _ corrected', s.startCursor_enc c _ corrected]; rfl

/-- Both cursors moved to one place are equal. -/
theorem State.cursors_equal_of_both_moved (corrected' : t.modeLit = false) (cur : Word) :
    (t.cursorMoved j (s.cursorMoved i sl cur) cur).encCur = (t.cursorMoved j (s.cursorMoved i sl cur) cur).decCur := by
  rcases pair with ⟨rfl, rfl⟩ | ⟨rfl, rfl⟩
  · rw [s.cursorMoved_enc c sl cur corrected]; rfl
  · rw [t.cursorMoved_enc c _ cur corrected']; rfl

/-- From a permutation as `BASE`, the bytes of one transform are undone by the other with the same key byte (R143). -/
theorem State.loopByte_undo (perm : s.base.isPerm = true) (valid : s.tablesValid sl) (b k : Byte) :
    s.loopByte j sl (s.loopByte i sl b k) k = b := by
  have inverse : ∀ x, sl.inv.entry (sl.fwd.entry x) = x ∧ sl.fwd.entry (sl.inv.entry x) = x := by
    obtain ⟨fwd, inv⟩ := valid
    rw [fwd, inv]
    exact (derivedTablesAreInverse s sl _ _ perm rfl).2
  have cancel : ∀ x : Byte, x ^^^ k ^^^ k = x := fun x => by rw [BitVec.xor_assoc, BitVec.xor_self, BitVec.xor_zero]
  rcases pair with ⟨rfl, rfl⟩ | ⟨rfl, rfl⟩
  · rw [s.loopByte_enc c sl corrected, s.loopByte_dec, Slot.decByte, Slot.encByte, (inverse _).1, cancel]
  · rw [s.loopByte_enc c sl corrected, s.loopByte_dec, Slot.decByte, Slot.encByte, cancel, (inverse _).2]

section secondTransform

variable (h : s.TransformReady i c sl) (done : s.TransformDone i c sl t)
include h done

/-- With equal cursors the second transform of a round trip is ready on the buffer of the first, from the same cursor. -/
theorem State.TransformReady.after_other (perm : s.base.isPerm = true) (canonical : s.mem.wf)
    (equal : sl.encCur = sl.decCur) :
    t.TransformReady j c (s.slotAfter i sl) ∧ t.startCursor j (s.slotAfter i sl) = s.startCursor i sl := by
  obtain ⟨-, mem, slot, base, kept⟩ := done
  have start : t.startCursor j (s.slotAfter i sl) = s.startCursor i sl := by
    rw [State.slotAfter, State.startCursor_cursorMoved_other pair corrected (kept.modeLit.trans corrected),
      State.startCursor_eq_encCur (pair.imp And.left And.left) corrected equal,
      State.startCursor_eq_encCur (pair.symm.imp And.right And.right) corrected equal]
  refine ⟨h.after perm canonical slot mem base ?_ (start ▸ h.inside) ?_, start⟩
  · rw [kept.argBufPtr]; exact h.bufferPresent
  · rw [kept.argBufPtr, kept.argBufSize]; exact h.apart

/-- The second transform of a round trip restores every byte of memory (R177). -/
theorem State.TransformReady.memory_restored (perm : s.base.isPerm = true) (canonical : s.mem.wf)
    (ready : t.TransformReady j c (s.slotAfter i sl))
    (start : t.startCursor j (s.slotAfter i sl) = s.startCursor i sl) (a : Word) :
    (t.transformed j (s.slotAfter i sl)).1.read a = s.mem.read a := by
  obtain ⟨-, mem, -, -, kept⟩ := done
  have canonical' : t.mem.wf := mem ▸ s.transform_wf sl _ _ canonical
  by_cases inBuffer : ∃ n < s.argBufSize.toNat, a = elemAddr s.argBufPtr n
  · obtain ⟨n, hn, rfl⟩ := inBuffer
    have index : t.keyIndex j (s.slotAfter i sl) n = s.keyIndex i sl n := by rw [State.keyIndex, start]; rfl
    have key : t.keyByte (s.slotAfter i sl) (s.keyIndex i sl n) = s.keyByte sl (s.keyIndex i sl n) := by
      rw [State.keyByte, mem]; exact h.keyByte_transformed canonical (h.keyIndex_lt n)
    have first : t.bufByte n = s.loopByte i sl (s.bufByte n) (s.keyByte sl (s.keyIndex i sl n)) := by
      rw [State.bufByte, kept.argBufPtr, mem]; exact h.bufByte_transformed canonical hn
    have second := ready.bufByte_transformed canonical' (n := n) (by rw [kept.argBufSize]; exact hn)
    have combine : t.loopByte j (s.slotAfter i sl) = s.loopByte j sl :=
      State.loopByte_congr kept.modeLit (s.slotAfter_fwd i sl) (s.slotAfter_inv i sl)
    rw [index, key, first, combine, kept.argBufPtr, State.loopByte_undo pair corrected perm h.valid] at second
    exact second
  · have outside : ∀ n < s.argBufSize.toNat, a ≠ elemAddr s.argBufPtr n := fun n hn e => inBuffer ⟨n, hn, e⟩
    calc (t.transformed j (s.slotAfter i sl)).1.read a
        = t.mem.read a := t.transform_frame _ _ _ canonical' a (by rw [kept.argBufPtr, kept.argBufSize]; exact outside)
      _ = s.mem.read a := by rw [mem]; exact s.transform_frame sl _ _ canonical a outside

/-- Both loops of a round trip move their cursor from one place by one buffer size, so to one place (R176, R177). -/
theorem State.TransformReady.cursors_equal (ready : t.TransformReady j c (s.slotAfter i sl))
    (start : t.startCursor j (s.slotAfter i sl) = s.startCursor i sl) :
    (t.slotAfter j (s.slotAfter i sl)).encCur = (t.slotAfter j (s.slotAfter i sl)).decCur := by
  have kept := done.registers
  have moved : (t.transformed j (s.slotAfter i sl)).2 = (s.transformed i sl).2 := by
    refine BitVec.eq_of_toNat_eq ?_
    rw [State.transformed, State.transformed, t.transform_cursor _ _ _ ready.inside, s.transform_cursor _ _ _ h.inside,
      start, kept.argBufSize]
    rfl
  rw [State.slotAfter, moved]
  exact State.cursors_equal_of_both_moved pair corrected (kept.modeLit.trans corrected) _

end secondTransform

end roundTrip

/-- Settles O35: each buffer byte is combined twice with one key byte, the second time undoing the first, and both loops move
their cursor from one place to one place. -/
theorem encryptionAndDecryptionUndoEachOther : Obligations.EncryptionAndDecryptionUndoEachOther := by
  refine ⟨fun i j c s sl pair canonical perm corrected slot buffer bound valid equal promised => ?_,
    fun c s t ran success => ?_⟩
  · have hi : i = .enc c ∨ i = .dec c := pair.imp And.left And.left
    have hj : j = .enc c ∨ j = .dec c := pair.symm.imp And.right And.right
    by_cases empty : sl.keySize = 0#32 ∨ s.argBufSize = 0#32
    · exact ⟨_, _, sl, exec_transform_ends hi (transformPrologue_empty slot buffer bound empty),
        exec_transform_ends hj (transformPrologue_empty (s := s.complete 0#4 false) slot buffer bound empty),
        State.status_succeeded _, State.status_succeeded _, fun _ => rfl, slot, equal, rfl, rfl, rfl, rfl⟩
    · obtain ⟨key, size⟩ := not_or.1 empty
      rw [← ne_eq, ← BitVec.pos_iff_ne_zero] at key size
      obtain ⟨-, inside, apart⟩ := promised key size
      have reached : s.LoopReached c sl :=
        ⟨slot, buffer, fun null => sl.not_malformed_iff.1 bound ⟨key, null⟩, key, size, valid⟩
      have ready : s.TransformReady i c sl :=
        reached.ready (State.startCursor_eq_encCur hi corrected equal ▸ inside) apart
      obtain ⟨t, ran, done⟩ := ready.done hi corrected
      obtain ⟨ready', start⟩ := ready.after_other pair corrected done perm canonical equal
      obtain ⟨u, ran', done'⟩ := ready'.done hj (done.registers.modeLit.trans corrected)
      exact ⟨t, u, _, ran, ran', done.status, done'.status,
        fun a => done'.mem ▸ ready.memory_restored pair corrected done perm canonical ready' start a,
        done'.slot, ready.cursors_equal pair corrected done ready' start, rfl, rfl, rfl, rfl⟩
  · have error : 2#4 ≠ 0#4 := by decide
    obtain ⟨-, rfl⟩ | ⟨old, slot, ⟨-, rfl⟩ | ⟨-, rfl⟩⟩ := execInit_cases ran
    · exact absurd success error
    · exact absurd success error
    · exact ⟨_, s.slot_setSlot_self c _ (State.slot_lt slot), rfl⟩

/-! ### R178: streaming -/

/-- The loop over `count₁ + count₂` bytes is the loop over `count₁` and, from where that one stands, over `count₂`. -/
theorem transformLoop_add {draw : Option Nat} {sl : Slot} {buf : Word} {combine : Byte → Byte → Byte}
    (count₁ count₂ n : Nat) (cur : Word) (m : Memory) :
    transformLoop draw sl buf combine (count₁ + count₂) n cur m =
      transformLoop draw sl buf combine count₂ (n + count₁) (transformLoop draw sl buf combine count₁ n cur m).2
        (transformLoop draw sl buf combine count₁ n cur m).1 := by
  induction count₁ generalizing n cur m with
  | zero => rw [Nat.zero_add]; rfl
  | succ count₁ ih => rw [Nat.succ_add, transformLoop_succ, transformLoop_succ, ih, Nat.succ_add_eq_add_succ]

/-- The loop on a buffer that starts at element `k` of another is the loop on that one from byte `k` on; of the slot it reads
the key binding alone. -/
theorem transformLoop_offset {sl sl' : Slot} (keyPtr : sl'.keyPtr = sl.keyPtr) (keySize : sl'.keySize = sl.keySize) {buf : Word}
    {combine : Byte → Byte → Byte} (k count n : Nat) (cur : Word) (m : Memory) :
    transformLoop none sl' (elemAddr buf k) combine count n cur m = transformLoop none sl buf combine count (k + n) cur m := by
  induction count generalizing n cur m with
  | zero => rfl
  | succ count ih =>
    rw [transformLoop_succ, transformLoop_succ, ih, elemAddr_elemAddr, keySize, Nat.add_assoc]
    simp only [loopKeyByte, keyPtr]

/-- `s` with the operand registers set for a first chunk of `n₁` bytes. -/
def State.firstChunk (s : State) (n₁ : Word) : State := { s with argBufSize := n₁ }

section chunks

variable {s u : State} {i : Instr} {c : Nat} {sl : Slot} {n₁ : Word}

/-- A second chunk that goes on where the first one stands, `n₁` bytes on in the buffer, ends where one transform of both ends
(R178). -/
theorem State.TransformReady.transformed_chunks (whole : s.TransformReady i c sl)
    (first : (s.firstChunk n₁).TransformReady i c sl)
    (second : u.TransformReady i c ((s.firstChunk n₁).slotAfter i sl))
    (pointer : u.argBufPtr = elemAddr s.argBufPtr n₁.toNat)
    (total : s.argBufSize.toNat = n₁.toNat + u.argBufSize.toNat) (mode : u.modeLit = s.modeLit)
    (mem : u.mem = ((s.firstChunk n₁).transformed i sl).1)
    (start : u.startCursor i ((s.firstChunk n₁).slotAfter i sl) = ((s.firstChunk n₁).transformed i sl).2) :
    u.transformed i ((s.firstChunk n₁).slotAfter i sl) = s.transformed i sl := by
  have combine : u.loopByte i ((s.firstChunk n₁).slotAfter i sl) = s.loopByte i sl := State.loopByte_congr mode rfl rfl
  rw [second.transformed_eq_loop, start, mem, pointer, combine,
    transformLoop_offset ((s.firstChunk n₁).slotAfter_keyPtr i sl) ((s.firstChunk n₁).slotAfter_keySize i sl),
    first.transformed_eq_loop, whole.transformed_eq_loop, total, transformLoop_add, Nat.add_zero, Nat.zero_add]
  rfl

end chunks

/-- Settles O36: the second chunk's loop goes on where the first chunk's loop stands. -/
theorem chunkedTransformEqualsOneTransform : Obligations.ChunkedTransformEqualsOneTransform := by
  intro i c s sl n₁ n₂ hi canonical perm corrected noCarry size notNull reached promised
  obtain ⟨-, inside, apart⟩ := promised
  have total : s.argBufSize.toNat = n₁.toNat + n₂.toNat := by
    rw [size, BitVec.toNat_add, Nat.mod_eq_of_lt noCarry]
  have pointer : s.argBufPtr + n₁ = elemAddr s.argBufPtr n₁.toNat := by simp [elemAddr]
  have start : s.startCursor i sl = if i = .enc c then sl.encCur else sl.decCur := by
    rcases hi with rfl | rfl
    · rw [s.startCursor_enc c sl corrected, if_pos rfl]
    · rw [s.startCursor_dec, if_neg (by simp)]
  have whole : s.TransformReady i c sl := reached.ready (start ▸ inside) apart
  have first : (s.firstChunk n₁).TransformReady i c sl :=
    { whole with apart := fun n hn => apart n (total ▸ Nat.lt_add_right _ hn) }
  obtain ⟨one, ran, done⟩ := whole.done hi corrected
  obtain ⟨t, ran₁, done₁⟩ := first.done hi corrected
  have mode : t.modeLit = s.modeLit := done₁.registers.modeLit
  have goesOn : { t with argBufPtr := s.argBufPtr + n₁, argBufSize := n₂ }.startCursor i
      ((s.firstChunk n₁).slotAfter i sl) = ((s.firstChunk n₁).transformed i sl).2 :=
    State.startCursor_cursorMoved _ hi corrected (mode.trans corrected)
  have second : { t with argBufPtr := s.argBufPtr + n₁, argBufSize := n₂ }.TransformReady i c
      ((s.firstChunk n₁).slotAfter i sl) := by
    refine first.after perm canonical done₁.slot done₁.mem done₁.base notNull ?_ fun n hn => ?_
    · rw [goesOn]
      exact State.transform_cursor_lt _ sl _ _ first.inside
    · simp only [pointer, elemAddr_elemAddr]
      exact apart _ (total ▸ Nat.add_lt_add_left hn _)
  obtain ⟨two, ran₂, done₂⟩ := second.done hi (mode.trans corrected)
  have joined := whole.transformed_chunks first second pointer total mode done₁.mem goesOn
  refine ⟨one, t, two, ran, ran₁, ran₂, done₂.status, fun a => ?_, ?_⟩
  · rw [done₂.mem, done.mem, joined]
  · rw [done₂.slot, done.slot, State.slotAfter, joined]
    exact congrArg some (State.cursorMoved_cursorMoved _ _ mode)

end Sys2Proof.Machine
end

section
/-! SUPPORT. The Base Table loader (44_base_table_loader.md R200). -/

namespace Sys2Proof.Machine

/-- The Base Table source is addressed by table index: a byte, added to the pointer as a word (R63, R69). -/
theorem elemAddr_byte (p : Word) (i : Byte) : elemAddr p i.toNat = p + i.setWidth 32 := by
  rw [elemAddr, BitVec.ofNat_toNat]

/-- Settles O26: the three cases of `execLdbase`; the successful one writes `BASE` and the flags alone. -/
theorem ldbaseReplacesTheBaseTable : Obligations.LdbaseReplacesTheBaseTable := by
  refine fun s => ⟨fun null => execLdbase_notFound null, fun present short => execLdbase_io present short,
    fun present long => ?_⟩
  have ran : exec .ldbase s = .next ({ s with base := s.mem.tableAt s.argSrcPtr }.complete 0#4 false) :=
    execLdbase_replaces present (BitVec.not_lt.2 long)
  refine ⟨_, ran, State.status_succeeded _, fun i => ?_, fun c => exec_otherSlots ran nofun, rfl, rfl,
    exec_registersKept ran, fun _ => rfl⟩
  rw [State.complete_base, Memory.entry_tableAt, elemAddr_byte]

end Sys2Proof.Machine
end

section
/-! SUPPORT. Register access: what a read of each register gives and what a write of each register does, and with them the two
statements about the host's register transactions (45_register_access.md R210, R211). -/

namespace Sys2Proof

/-- The registers that ignore a write: read-only, constant and unimplemented ones (R211). -/
def Reg.writeIgnored : List Reg := [.status, .winEncCur, .winDecCur, .id, .nctx, .unimplemented]

/-- The indices of those registers (R26, R36). -/
theorem Reg.ofIndex_mem_writeIgnored :
    ∀ i : RegIndex, i = 1#6 ∨ i = 12#6 ∨ i = 13#6 ∨ 16#6 ≤ i → Reg.ofIndex i ∈ Reg.writeIgnored := by decide

end Sys2Proof

namespace Sys2Proof.Machine

/-! ### Reads (R210) -/

section read

variable (s : State)

/-- The two flags and the two reserved fields of `STATUS` (R29). -/
theorem State.readReg_status_fields :
    (s.readReg .status).extractLsb' 0 4 = s.statusErr ∧ (s.readReg .status).getLsbD 8 = s.statusResult ∧
    (s.readReg .status).extractLsb' 4 4 = 0#4 ∧ (s.readReg .status).extractLsb' 9 23 = 0#23 := by
  have fields : ∀ (result : Bool) (err : BitVec 4) (w : Word), w = 0#23 ++ BitVec.ofBool result ++ 0#4 ++ err →
      w.extractLsb' 0 4 = err ∧ w.getLsbD 8 = result ∧ w.extractLsb' 4 4 = 0#4 ∧ w.extractLsb' 9 23 = 0#23 := by
    simp only [forall_eq]; decide
  exact fields s.statusResult s.statusErr _ rfl

theorem State.readReg_mode : s.readReg .mode = if s.modeLit then 1#32 else 0#32 := by
  rw [State.readReg]
  cases s.modeLit <;> rfl

end read

section readWindow

variable {s : State}

/-- The window shows the key binding and the cursors of a present slot (R32). -/
theorem State.readReg_shown {sl : Slot} (slot : s.slot s.winCtx.toNat = some sl) :
    s.readReg .winKeyPtr = sl.keyPtr ∧ s.readReg .winKeySize = sl.keySize ∧
    s.readReg .winEncCur = sl.encCur ∧ s.readReg .winDecCur = sl.decCur := by
  simp [State.readReg, State.winSlot, slot]

/-- The window on an absent slot reads 0 (R32). -/
theorem State.readReg_absent (absent : s.slot s.winCtx.toNat = none) :
    s.readReg .winKeyPtr = 0#32 ∧ s.readReg .winKeySize = 0#32 ∧
    s.readReg .winEncCur = 0#32 ∧ s.readReg .winDecCur = 0#32 := by
  simp [State.readReg, State.winSlot, absent]

/-- The tables of an absent slot read 0 (R34). -/
theorem State.winData_absent (absent : s.slot s.winCtx.toNat = none) (sel : s.winSel ≤ 1#3) : s.winData = 0#32 := by
  have sel_cases : s.winSel = 0#3 ∨ s.winSel = 1#3 := by bv_omega
  rcases sel_cases with sel | sel <;> simp [State.winData, State.winSlot, absent, sel]

theorem State.winData_base (sel : s.winSel = 2#3) : s.winData = (s.base.entry s.winIdx).setWidth 32 := by
  simp [State.winData, sel]

theorem State.winData_sfwd (sel : s.winSel = 3#3) : s.winData = (s.sfwd.entry s.winIdx).setWidth 32 := by
  simp [State.winData, sel]

theorem State.winData_sinv (sel : s.winSel = 4#3) : s.winData = (s.sinv.entry s.winIdx).setWidth 32 := by
  simp [State.winData, sel]

/-- The table selects 5 to 7 name no table (R34). -/
theorem State.winData_noTable (sel : 5#3 ≤ s.winSel) : s.winData = 0#32 := by
  have sel_cases : s.winSel = 5#3 ∨ s.winSel = 6#3 ∨ s.winSel = 7#3 := by bv_omega
  rcases sel_cases with sel | sel | sel <;> simp [State.winData, sel]

end readWindow

/-- Settles O8: the reply is `readReg` of the register behind the index, whose clauses are taken one by one. -/
theorem registerReadsGiveTheRegister : Obligations.RegisterReadsGiveTheRegister := by
  intro s rest i pending
  have reply : step s = .next { s with pending := rest, replies := s.replies ++ [.word (s.readReg (Reg.ofIndex i))] } :=
    step_pending pending
  have read (r : Reg) (hi : i = r.index) : s.readReg (Reg.ofIndex i) = s.readReg r := by rw [hi, Reg.ofIndex_index]
  have readField (r : Reg) {k : Nat} (x : BitVec k) (fits : k ≤ 32) (holds : s.readReg r = x.setWidth 32)
      (hi : i = r.index) : (s.readReg (Reg.ofIndex i)).toNat = x.toNat := by
    rw [read r hi, holds, BitVec.toNat_setWidth_of_le fits]
  have readEntry (b : Byte) (holds : s.winData = b.setWidth 32) :
      i = 15#6 → (s.readReg (Reg.ofIndex i)).toNat = b.toNat := readField .winTdata b (by decide) holds
  refine ⟨s.readReg (Reg.ofIndex i), reply, read .cmd, fun hi => read .status hi ▸ s.readReg_status_fields,
    fun hi => (read .mode hi).trans s.readReg_mode, read .argKeyPtr, read .argKeySize, read .argBufPtr, read .argBufSize,
    read .argSrcPtr, read .argSrcLen, readField .winCtx s.winCtx (by decide) rfl, fun sl slot => ?present, fun absent => ?absent,
    readField .winTaddr s.winTaddr (by decide) rfl, fun hi sel => readEntry _ (State.winData_base sel) hi,
    fun hi sel => readEntry _ (State.winData_sfwd sel) hi, fun hi sel => readEntry _ (State.winData_sinv sel) hi,
    fun hi sel => (read .winTdata hi).trans (State.winData_noTable sel), read .id, read .nctx,
    fun hi => congrArg s.readReg (Reg.ofIndex_unimplemented i hi)⟩
  case present =>
    obtain ⟨keyPtr, keySize, encCur, decCur⟩ := State.readReg_shown slot
    exact ⟨fun hi => (read .winKeyPtr hi).trans keyPtr, fun hi => (read .winKeySize hi).trans keySize,
      fun hi => (read .winEncCur hi).trans encCur, fun hi => (read .winDecCur hi).trans decCur,
      fun hi sel => readEntry _ (State.winData_fwd slot sel) hi, fun hi sel => readEntry _ (State.winData_inv slot sel) hi⟩
  case absent =>
    have noSlot := (State.slot_eq_none_iff s s.winCtx.toNat).2 absent
    obtain ⟨keyPtr, keySize, encCur, decCur⟩ := State.readReg_absent noSlot
    exact ⟨fun hi => (read .winKeyPtr hi).trans keyPtr, fun hi => (read .winKeySize hi).trans keySize,
      fun hi => (read .winEncCur hi).trans encCur, fun hi => (read .winDecCur hi).trans decCur,
      fun hi sel => (read .winTdata hi).trans (State.winData_absent noSlot sel)⟩

/-! ### Writes (R211) -/

theorem State.writeReg_ignored (s : State) {r : Reg} (v : Word) (hr : r ∈ Reg.writeIgnored) : s.writeReg r v = s := by
  simp only [Reg.writeIgnored, List.mem_cons, List.not_mem_nil, or_false] at hr
  rcases hr with rfl | rfl | rfl | rfl | rfl | rfl <;> rfl

section writeWindow

variable {s : State}

/-- Writes through the window to an absent slot are ignored (R32, R34). -/
theorem State.writeWinData_absent (absent : s.slot s.winCtx.toNat = none) (b : Byte) : s.writeWinData b = s := by
  rcases s.writeWinData_cases b with same | ⟨sl, slot, -⟩
  · exact same
  · exact absurd (slot.symm.trans absent) nofun

/-- Writes through the window to `BASE`, to the scratch tables or to no table are ignored (R34). -/
theorem State.writeWinData_notSlotTable (sel : 2#3 ≤ s.winSel) (b : Byte) : s.writeWinData b = s := by
  rcases s.writeWinData_cases b with same | ⟨sl, -, ⟨fwd, -⟩ | ⟨inv, -⟩⟩
  · exact same
  · exact absurd (fwd ▸ sel) (by decide)
  · exact absurd (inv ▸ sel) (by decide)

end writeWindow

/-- Settles O9: a `CMD` write is a command; any other is `writeReg` of the register behind the index, whose clauses are taken
one by one. -/
theorem registerWritesDoWhatTheRuleSays : Obligations.RegisterWritesDoWhatTheRuleSays := by
  intro s rest i v pending s₀ moved
  obtain rfl : s₀ = s.dequeued := by rw [moved, State.dequeued, pending, List.tail_cons]
  have runs : step s = transact (.write i v) s.dequeued := moved ▸ step_pending pending
  have write (r : Reg) (notCmd : r ≠ .cmd) (hi : Reg.ofIndex i = r) :
      step s = .next (s.dequeued.writeReg r v) := by
    rw [runs, transact_write _ (fun zero => notCmd (hi ▸ (Reg.ofIndex_eq_cmd i).2 zero)), hi]
  have writeAt (r : Reg) (notCmd : r ≠ .cmd) (hi : i = r.index) :
      step s = .next (s.dequeued.writeReg r v) := write r notCmd (hi ▸ Reg.ofIndex_index r)
  refine ⟨?command, fun hi => ?ignored, writeAt .mode nofun, writeAt .argKeyPtr nofun, writeAt .argKeySize nofun,
    writeAt .argBufPtr nofun, writeAt .argBufSize nofun, writeAt .argSrcPtr nofun, writeAt .argSrcLen nofun,
    writeAt .winCtx nofun, writeAt .winTaddr nofun, fun sl slot => ?present, fun absent => ?absent, fun hi sel => ?noTable⟩
  case command =>
    rintro rfl
    rw [runs, transact_cmd]
    exact ⟨fun ins legal => commandWrite_legal _ legal, fun why illegal => commandWrite_illegal _ illegal⟩
  case ignored =>
    have ignores := Reg.ofIndex_mem_writeIgnored i hi
    have notCmd : Reg.ofIndex i ≠ .cmd := fun cmd => absurd (cmd ▸ ignores) (by decide)
    rw [write _ notCmd rfl, State.writeReg_ignored _ v ignores]
  case present =>
    have slot : s.dequeued.slot s.dequeued.winCtx.toNat = some sl := slot
    exact ⟨fun hi => (writeAt .winKeyPtr nofun hi).trans (congrArg _ (State.updateWinSlot_some _ _ slot)),
      fun hi => (writeAt .winKeySize nofun hi).trans (congrArg _ (State.updateWinSlot_some _ _ slot)),
      fun hi sel => (writeAt .winTdata nofun hi).trans (congrArg _ (State.writeWinData_fwd slot sel _)),
      fun hi sel => (writeAt .winTdata nofun hi).trans (congrArg _ (State.writeWinData_inv slot sel _))⟩
  case absent =>
    have noSlot := (State.slot_eq_none_iff s.dequeued s.dequeued.winCtx.toNat).2 absent
    rintro (hi | hi | hi)
    · exact (writeAt .winKeyPtr nofun hi).trans (congrArg _ (State.updateWinSlot_none _ _ noSlot))
    · exact (writeAt .winKeySize nofun hi).trans (congrArg _ (State.updateWinSlot_none _ _ noSlot))
    · exact (writeAt .winTdata nofun hi).trans (congrArg _ (State.writeWinData_absent noSlot _))
  case noTable =>
    exact (writeAt .winTdata nofun hi).trans (congrArg _ (State.writeWinData_notSlotTable (s := s.dequeued) sel _))

end Sys2Proof.Machine
end

section
/-! SUPPORT. The error outcomes (60_exceptions.md R232, R236, R237): an absent context, what a failed command changes, and that
nothing stops the machine. -/

namespace Sys2Proof.Machine

/-- Settles O42, by the cases of a command: of those that set `ERR`, only a failed `INIT` writes a slot, and only the validator
writes the scratch tables, which it leaves clear. -/
theorem failedCommandsChangeOnlyStatus : Obligations.FailedCommandsChangeOnlyStatus := by
  intro i s t clearFwd clearInv ran failed
  cases exec_effect ran with
  | fails => exact .inl rfl
  | invalid =>
    rw [State.scratchCleared_self clearFwd clearInv]
    exact .inl rfl
  | initFails c present => exact .inr ⟨c, rfl, present, rfl⟩
  | initBinds | teardown | gen | verdict | noOp | enc | encLiteral | dec | ldbase => exact absurd rfl failed

/-- A `CMD` write completes, with a legal word (R237) and with an illegal one (R95, R97). -/
theorem commandWrite_answers (v : Word) (s : State) : ∃ t, commandWrite v s = .next t := by
  cases decoded : decode v with
  | ok i => exact commandWrite_legal s decoded ▸ exec_answers i s
  | error why => exact ⟨_, commandWrite_illegal s decoded⟩

/-- Every host transaction completes; memory accesses cannot fail (R66). -/
theorem transact_answers (op : HostOp) (s : State) : ∃ t, transact op s = .next t := by
  cases op with
  | read i => exact ⟨_, transact_read s i⟩
  | load a => exact ⟨_, transact_load s a⟩
  | store a b => exact ⟨_, transact_store s a b⟩
  | reset => exact ⟨_, transact_reset s⟩
  | write i v =>
    by_cases cmd : i = 0#6
    · rw [cmd, transact_cmd]
      exact commandWrite_answers v s
    · exact ⟨_, transact_write s cmd v⟩

/-- Settles O52: an idle step changes nothing, and any other performs a transaction, which completes. -/
theorem everyStepAnswersANextState : Obligations.EveryStepAnswersANextState := by
  intro s
  cases queue : s.pending with
  | nil => exact ⟨s, step_idle queue⟩
  | cons op rest =>
    rw [State.goesOn, step_pending queue]
    exact transact_answers op _

/-- Settles O19: each command that takes a context checks first that its slot is present. -/
theorem absentContextIsInvalidArgument : Obligations.AbsentContextIsInvalidArgument := by
  intro i c s takes absent
  have noSlot := (State.slot_eq_none_iff s c).2 absent
  cases i with
  | ldbase => cases takes
  | init => cases takes; exact execInit_absent noSlot
  | teardown => cases takes; exact execTeardown_absent noSlot
  | gen => cases takes; exact execGen_absent noSlot
  | validate => cases takes; exact execValidate_absent noSlot
  | enc => cases takes; exact execEnc_ends (transformPrologue_absent noSlot)
  | dec => cases takes; exact execDec_ends (transformPrologue_absent noSlot)

end Sys2Proof.Machine
end
